-- ==== Sys2Proof/Word.lean ====
section
/-! DEFINITION. The bit-vector types of the block: bytes, 32-bit words, the host address and the three event fields.
Every value is unsigned (spec/00_scope.md R9); bit 0 is the least significant bit. -/

namespace Sys2Proof

/-- One byte of the stream (R50, R83). -/
abbrev Byte := BitVec 8

/-- A 32-bit word: event word, clock word, host data, register (R7, R8). -/
abbrev Word := BitVec 32

/-- A host word address `A[22:0]` (R8, R50). -/
abbrev HostAddr := BitVec 23

/-- A detector channel, the row of both tables (R7, R81). -/
abbrev Channel := BitVec 9

/-- A timing value, the column of the TDC table (R7, R81). -/
abbrev TimeBin := BitVec 10

/-- An energy value, the column of the AMP table (R7, R81). -/
abbrev Energy := BitVec 12

/-- One stream transfer as the port carries it, `eos` above `d` (R83). -/
abbrev Stx9 := BitVec 9

/-- One host transaction as the port carries it, `we` above `A` above `D` (R84). -/
abbrev Htx56 := BitVec 56

end Sys2Proof
end

