-- ==== Sys2Proof/Config.lean ====
section
/-! DEFINITION. What an implementation fixes: the cell width CW (spec/00_scope.md R6), and the dimensions and constant
fields the source fixes (R7, R31). The spec leaves no other value open, so there is no free value here. -/

namespace Sys2Proof

/-- The cell width `CW`, with the bounds of R6 carried by the value. -/
structure CellWidth where
  bits : Nat
  one_le : 1 ≤ bits
  le_32 : bits ≤ 32
  deriving DecidableEq, Repr

/-- The spec's default cell width, CW = 32 (R6). -/
def CellWidth.default : CellWidth := ⟨32, by decide, by decide⟩

/-- The largest value a cell holds, `2^CW - 1` (R154). -/
def CellWidth.maxCount (cw : CellWidth) : Nat := 2 ^ cw.bits - 1

/-- The configuration of one block (R35: "The configuration is `CW`"). -/
structure Config where
  cw : CellWidth
  deriving DecidableEq, Repr

/-- Channels, rows of both tables (R7). -/
def nChannels : Nat := 512

/-- Columns of the timing table (R7). -/
def nTimeBins : Nat := 1024

/-- Columns of the amplitude table (R7). -/
def nEnergyBins : Nat := 4096

/-- Cells of the AMP RAM, 2^21 (R55). -/
def ampCells : Nat := 2097152

/-- Cells of the TDC RAM, 2^19 (R55). -/
def tdcCells : Nat := 524288

end Sys2Proof
end

