-- ==== Sys2Proof/Syntax.lean ====
section
/-! DEFINITION. The operations of spec/opcode_table.json, one constructor a row (spec/30_encoding.md R88), and the four
formats they are encoded in (R80). Bits the spec calls ignored stay in the syntax, so that no bit of an encoding is lost. -/

namespace Sys2Proof

/-- The four formats of R80. -/
inductive Format
  | stx9   -- one stream-port transfer
  | evt32  -- the word in event position (bytes 0..3 of a pair)
  | clk32  -- the word in clock position (bytes 4..7 of a pair)
  | htx56  -- one host-port transaction
  deriving DecidableEq, Repr

/-- Bits of a format (R80). -/
def Format.width : Format → Nat
  | .stx9 => 9
  | .evt32 => 32
  | .clk32 => 32
  | .htx56 => 56

/-- Whole bytes that hold a format's bits. -/
def Format.bytes : Format → Nat
  | .stx9 => 2
  | .evt32 => 4
  | .clk32 => 4
  | .htx56 => 7

/-- One encoded operation: a format and exactly its bits (R80). The format is part of the value because bits alone never
tell EVT32 from CLK32. -/
inductive Encoding
  | stx9 (x : Stx9)
  | evt32 (w : Word)
  | clk32 (w : Word)
  | htx56 (h : Htx56)
  deriving DecidableEq, Repr

def Encoding.format : Encoding → Format
  | .stx9 _ => .stx9
  | .evt32 _ => .evt32
  | .clk32 _ => .clk32
  | .htx56 _ => .htx56

/-- The encoded bits as a number, bit 0 the least significant, in 56 bits. -/
def Encoding.bits : Encoding → BitVec 56
  | .stx9 x => x.setWidth 56
  | .evt32 w => w.setWidth 56
  | .clk32 w => w.setWidth 56
  | .htx56 h => h

/-- The four fields of an event word (R81, R120). -/
structure EventFields where
  r : BitVec 1
  channel : Channel
  time : TimeBin
  energy : Energy
  deriving DecidableEq, Repr

/-- The 16 operations (R88). A parameter called `dc` is a field the spec has ignored (don't care): `d` of an S_EOS
(R83), `D` of a host read (R84), `D[31:1]` of a CTRL write (R30). -/
inductive Instr
  | sByte (d : Byte)                                            -- S_BYTE, R101
  | sEos (dc : Byte)                                            -- S_EOS, R106
  | eventWord (r : BitVec 1) (c : Channel) (t : TimeBin) (e : Energy)  -- EVENT_WORD, R153
  | clockWord (w : Word)                                        -- CLOCK_WORD, R141
  | hStart (dc : BitVec 31)                                     -- H_START, R182
  | hWrCtrlNop (dc : BitVec 31)                                 -- H_WR_CTRL_NOP, R183
  | hWrIllegal (a : HostAddr) (d : Word)                        -- H_WR_ILLEGAL, R184
  | hRdCtrl (dc : Word)                                         -- H_RD_CTRL, R185
  | hRdStatus (dc : Word)                                       -- H_RD_STATUS, R186
  | hRdClockLast (dc : Word)                                    -- H_RD_CLOCK_LAST, R187
  | hRdPairCount (dc : Word)                                    -- H_RD_PAIR_COUNT, R188
  | hRdRsvdCount (dc : Word)                                    -- H_RD_RSVD_COUNT, R189
  | hRdConfig (dc : Word)                                       -- H_RD_CONFIG, R190
  | hRdAmp (c : Channel) (e : Energy) (dc : Word)               -- H_RD_AMP, R191
  | hRdTdc (c : Channel) (t : TimeBin) (dc : Word)              -- H_RD_TDC, R192
  | hRdReserved (a : HostAddr) (dc : Word)                      -- H_RD_RESERVED, R193
  deriving DecidableEq, Repr

/-- One row of spec/opcode_table.json: its format, and the bits it fixes (`mask`) with their values (`value`). -/
structure OpcodeRow where
  format : Format
  value : BitVec 56
  mask : BitVec 56
  deriving DecidableEq, Repr

end Sys2Proof
end

