-- ==== Sys2Proof/WellFormed.lean ====
section
/-! DEFINITION. Which terms of Instr stand for an encoding. Every operand has its field's width in its type; what is left
are the two fallback rows of spec/30_encoding.md R87, whose address must be none of the other rows'. -/

namespace Sys2Proof

/-- The two reserved rows of the host map (spec/20_memory.md R60): `0x000006 - 0x1FFFFF` and `0x480000 - 0x7FFFFF`. -/
def reservedAddr (a : HostAddr) : Bool :=
  (0x000006#23 ≤ a && a ≤ 0x1FFFFF#23) || (0x480000#23 ≤ a && a ≤ 0x7FFFFF#23)

/-- H_WR_ILLEGAL is a write to any address but CTRL's (R184); H_RD_RESERVED is a read of a reserved address (R193). -/
def Instr.wellFormed : Instr → Bool
  | .hWrIllegal a _ => a != 0#23
  | .hRdReserved a _ => reservedAddr a
  | .sByte _ => true
  | .sEos _ => true
  | .eventWord _ _ _ _ => true
  | .clockWord _ => true
  | .hStart _ => true
  | .hWrCtrlNop _ => true
  | .hRdCtrl _ => true
  | .hRdStatus _ => true
  | .hRdClockLast _ => true
  | .hRdPairCount _ => true
  | .hRdRsvdCount _ => true
  | .hRdConfig _ => true
  | .hRdAmp _ _ _ => true
  | .hRdTdc _ _ _ => true

end Sys2Proof
end

