-- ==== Sys2Proof/Decode.lean ====
section
/-! DEFINITION. The decoder of the four formats (spec/30_encoding.md R81 to R87), the encoder, the opcode table's rows,
the byte framing, and the pseudo-operations of R92. -/

namespace Sys2Proof

/-! ## Field extraction -/

/-- EXTRACT, the bit-field extractor (spec/41_event_decoder.md R121). -/
def extract (w : Word) : EventFields where
  r := w.extractLsb' 31 1
  channel := w.extractLsb' 22 9
  time := w.extractLsb' 12 10
  energy := w.extractLsb' 0 12

/-- `we = x[55]` (R84, R85). -/
def htxWe (h : Htx56) : BitVec 1 := h.extractLsb' 55 1

/-- `A = x[54:32]` (R84, R85). -/
def htxAddr (h : Htx56) : HostAddr := h.extractLsb' 32 23

/-- `D = x[31:0]` (R84, R85). -/
def htxData (h : Htx56) : Word := h.extractLsb' 0 32

/-! ## The decoder: total, one operation for each value (R86, R87) -/

/-- Stream-port decode (R86). -/
def decodeStx9 (x : Stx9) : Instr :=
  if x.extractLsb' 8 1 = 1#1 then .sEos (x.extractLsb' 0 8) else .sByte (x.extractLsb' 0 8)

/-- The word in event position (R81). -/
def decodeEvt32 (w : Word) : Instr :=
  .eventWord (extract w).r (extract w).channel (extract w).time (extract w).energy

/-- The word in clock position (R82): no bit-field unpacking. -/
def decodeClk32 (w : Word) : Instr := .clockWord w

/-- A host write (R87). -/
def decodeHostWrite (a : HostAddr) (d : Word) : Instr :=
  if a = 0#23 then
    if d.extractLsb' 0 1 = 1#1 then .hStart (d.extractLsb' 1 31) else .hWrCtrlNop (d.extractLsb' 1 31)
  else .hWrIllegal a d

/-- A host read (R87): the six registers, the AMP window `A[22:21] = 01`, the TDC window `A[22:19] = 1000`, and every
other address reserved. -/
def decodeHostRead (a : HostAddr) (d : Word) : Instr :=
  if a = 0x000000#23 then .hRdCtrl d
  else if a = 0x000001#23 then .hRdStatus d
  else if a = 0x000002#23 then .hRdClockLast d
  else if a = 0x000003#23 then .hRdPairCount d
  else if a = 0x000004#23 then .hRdRsvdCount d
  else if a = 0x000005#23 then .hRdConfig d
  else if a.extractLsb' 21 2 = 0b01#2 then .hRdAmp (a.extractLsb' 12 9) (a.extractLsb' 0 12) d
  else if a.extractLsb' 19 4 = 0b1000#4 then .hRdTdc (a.extractLsb' 10 9) (a.extractLsb' 0 10) d
  else .hRdReserved a d

/-- Host-port decode (R87). -/
def decodeHtx56 (h : Htx56) : Instr :=
  if htxWe h = 1#1 then decodeHostWrite (htxAddr h) (htxData h) else decodeHostRead (htxAddr h) (htxData h)

/-- The decoder of all four formats. No encoding is undefined (R89), so there is nothing to reject here. -/
def decode : Encoding → Instr
  | .stx9 x => decodeStx9 x
  | .evt32 w => decodeEvt32 w
  | .clk32 w => decodeClk32 w
  | .htx56 h => decodeHtx56 h

/-! ## The encoder (R83 to R85) -/

/-- `{eos, d}` (R83). -/
def packStx9 (eos : BitVec 1) (d : Byte) : Stx9 := (eos.setWidth 9 <<< 8) ||| d.setWidth 9

/-- `{r, c, t, e}`, the packing of R85: `(r << 31) | (c << 22) | (t << 12) | e`. -/
def packEvt32 (r : BitVec 1) (c : Channel) (t : TimeBin) (e : Energy) : Word :=
  (r.setWidth 32 <<< 31) ||| (c.setWidth 32 <<< 22) ||| (t.setWidth 32 <<< 12) ||| e.setWidth 32

/-- `{we, A, D}` (R84). -/
def packHtx56 (we : BitVec 1) (a : HostAddr) (d : Word) : Htx56 :=
  (we.setWidth 56 <<< 55) ||| (a.setWidth 56 <<< 32) ||| d.setWidth 56

/-- The host address of `AMP[c][e]`: `0x200000 | (c << 12) | e` (R60, R92). -/
def ampWindowAddr (c : Channel) (e : Energy) : HostAddr :=
  0x200000#23 ||| (c.setWidth 23 <<< 12) ||| e.setWidth 23

/-- The host address of `TDC[c][t]`: `0x400000 | (c << 10) | t` (R60, R92). -/
def tdcWindowAddr (c : Channel) (t : TimeBin) : HostAddr :=
  0x400000#23 ||| (c.setWidth 23 <<< 10) ||| t.setWidth 23

/-- The encoding of each operation, ignored fields included. -/
def encode : Instr → Encoding
  | .sByte d => .stx9 (packStx9 0#1 d)
  | .sEos dc => .stx9 (packStx9 1#1 dc)
  | .eventWord r c t e => .evt32 (packEvt32 r c t e)
  | .clockWord w => .clk32 w
  | .hStart dc => .htx56 (packHtx56 1#1 0x000000#23 ((dc.setWidth 32 <<< 1) ||| 1#32))
  | .hWrCtrlNop dc => .htx56 (packHtx56 1#1 0x000000#23 (dc.setWidth 32 <<< 1))
  | .hWrIllegal a d => .htx56 (packHtx56 1#1 a d)
  | .hRdCtrl dc => .htx56 (packHtx56 0#1 0x000000#23 dc)
  | .hRdStatus dc => .htx56 (packHtx56 0#1 0x000001#23 dc)
  | .hRdClockLast dc => .htx56 (packHtx56 0#1 0x000002#23 dc)
  | .hRdPairCount dc => .htx56 (packHtx56 0#1 0x000003#23 dc)
  | .hRdRsvdCount dc => .htx56 (packHtx56 0#1 0x000004#23 dc)
  | .hRdConfig dc => .htx56 (packHtx56 0#1 0x000005#23 dc)
  | .hRdAmp c e dc => .htx56 (packHtx56 0#1 (ampWindowAddr c e) dc)
  | .hRdTdc c t dc => .htx56 (packHtx56 0#1 (tdcWindowAddr c t) dc)
  | .hRdReserved a dc => .htx56 (packHtx56 0#1 a dc)

/-! ## The opcode table's rows (spec/opcode_table.json: "match" and "mask") -/

/-- The row of each operation, copied from the table. -/
def opcodeRow : Instr → OpcodeRow
  | .sByte _ => ⟨.stx9, 0x000#56, 0x100#56⟩
  | .sEos _ => ⟨.stx9, 0x100#56, 0x100#56⟩
  | .eventWord _ _ _ _ => ⟨.evt32, 0#56, 0#56⟩
  | .clockWord _ => ⟨.clk32, 0#56, 0#56⟩
  | .hStart _ => ⟨.htx56, 0x80000000000001#56, 0xFFFFFF00000001#56⟩
  | .hWrCtrlNop _ => ⟨.htx56, 0x80000000000000#56, 0xFFFFFF00000001#56⟩
  | .hWrIllegal _ _ => ⟨.htx56, 0x80000000000000#56, 0x80000000000000#56⟩
  | .hRdCtrl _ => ⟨.htx56, 0x00000000000000#56, 0xFFFFFF00000000#56⟩
  | .hRdStatus _ => ⟨.htx56, 0x00000100000000#56, 0xFFFFFF00000000#56⟩
  | .hRdClockLast _ => ⟨.htx56, 0x00000200000000#56, 0xFFFFFF00000000#56⟩
  | .hRdPairCount _ => ⟨.htx56, 0x00000300000000#56, 0xFFFFFF00000000#56⟩
  | .hRdRsvdCount _ => ⟨.htx56, 0x00000400000000#56, 0xFFFFFF00000000#56⟩
  | .hRdConfig _ => ⟨.htx56, 0x00000500000000#56, 0xFFFFFF00000000#56⟩
  | .hRdAmp _ _ _ => ⟨.htx56, 0x20000000000000#56, 0xE0000000000000#56⟩
  | .hRdTdc _ _ _ => ⟨.htx56, 0x40000000000000#56, 0xF8000000000000#56⟩
  | .hRdReserved _ _ => ⟨.htx56, 0x00000000000000#56, 0x80000000000000#56⟩

/-- The twelve HTX56 rows, in the table's order. -/
def htxRows : List OpcodeRow :=
  [opcodeRow (.hStart 0), opcodeRow (.hWrCtrlNop 0), opcodeRow (.hWrIllegal 0 0), opcodeRow (.hRdCtrl 0),
   opcodeRow (.hRdStatus 0), opcodeRow (.hRdClockLast 0), opcodeRow (.hRdPairCount 0), opcodeRow (.hRdRsvdCount 0),
   opcodeRow (.hRdConfig 0), opcodeRow (.hRdAmp 0 0 0), opcodeRow (.hRdTdc 0 0 0), opcodeRow (.hRdReserved 0 0)]

/-- A value matches a row when it has the row's values at the bits the row fixes. -/
def OpcodeRow.accepts (row : OpcodeRow) (h : BitVec 56) : Bool := h &&& row.mask == row.value

/-- How many bits a row fixes (R87: "the matching row of this table that has the most fixed bits"). -/
def OpcodeRow.fixedBits (row : OpcodeRow) : Nat := (List.range 56).countP (fun k => row.mask.getLsbD k)

/-! ## Byte framing

Bytes enter the block on the stream port only, one `d` at a time. For words written as bytes from outside (a table word,
a test), the bits of a format are laid out least significant byte first, as R51 lays out a word. -/

/-- Why a byte string is no encoding of a format. -/
inductive Rejection
  | wrongLength  -- not the format's whole number of bytes
  | strayBits    -- a 1 above the format's width
  deriving DecidableEq, Repr

/-- The number a byte string stands for, first byte least significant (R51). -/
def leNat : List Byte → Nat
  | [] => 0
  | b :: bs => b.toNat + 256 * leNat bs

/-- The `n` low bytes of a number, least significant first. -/
def leBytes : Nat → Nat → List Byte
  | 0, _ => []
  | n + 1, v => BitVec.ofNat 8 v :: leBytes n (v / 256)

/-- The encoding that a number's bits are in a format. -/
def Format.encoding : Format → Nat → Encoding
  | .stx9, v => .stx9 (BitVec.ofNat 9 v)
  | .evt32, v => .evt32 (BitVec.ofNat 32 v)
  | .clk32, v => .clk32 (BitVec.ofNat 32 v)
  | .htx56, v => .htx56 (BitVec.ofNat 56 v)

/-- The decoder on bytes, for a format: total, and rejecting by name. -/
def decodeBytes (f : Format) (bs : List Byte) : Except Rejection Instr :=
  if bs.length ≠ f.bytes then .error .wrongLength
  else if leNat bs < 2 ^ f.width then .ok (decode (f.encoding (leNat bs)))
  else .error .strayBits

/-- The bytes of an operation's encoding. -/
def encodeBytes (i : Instr) : List Byte := leBytes (encode i).format.bytes (encode i).bits.toNat

/-- The format a table word of `nbits` bits is read in: 9 bits (in 2 whole bytes) STX9, 32 bits EVT32, 56 bits HTX56.
A 32-bit word alone does not say whether it is EVT32 or CLK32 (R80); it is read in event position, the position of the
first word of a run (R52). -/
def tableFormat (nbits : Nat) : Option Format :=
  if nbits ≤ 16 then some .stx9
  else if nbits ≤ 32 then some .evt32
  else if nbits ≤ 64 then some .htx56
  else none

/-- The instruction the decoder reads from a table word, bit 0 the least significant. -/
def decodeTableWord (nbits w : Nat) : Option Instr :=
  match tableFormat nbits with
  | none => none
  | some f =>
    if w < 2 ^ (8 * f.bytes) then
      match decodeBytes f (leBytes f.bytes w) with
      | .ok i => some i
      | .error _ => none
    else none

/-! ## Transactions and pseudo-operations (R91, R92)

Operands carry their field's width, so an operand out of range cannot be written. -/

/-- `BYTE b`. -/
def opByte (b : Byte) : Stx9 := packStx9 0#1 b

/-- `EOS`: STX9 `0x100`. -/
def opEos : Stx9 := packStx9 1#1 0#8

/-- `WR A, D`. -/
def opWr (a : HostAddr) (d : Word) : Htx56 := packHtx56 1#1 a d

/-- `RD A`. -/
def opRd (a : HostAddr) : Htx56 := packHtx56 0#1 a 0#32

/-- `WORD w`: least significant byte first. -/
def opWord (w : Word) : List Stx9 :=
  [opByte (w.extractLsb' 0 8), opByte (w.extractLsb' 8 8), opByte (w.extractLsb' 16 8), opByte (w.extractLsb' 24 8)]

/-- `EVENTR r, c, t, e`. -/
def opEventR (r : BitVec 1) (c : Channel) (t : TimeBin) (e : Energy) : List Stx9 := opWord (packEvt32 r c t e)

/-- `EVENT c, t, e`. -/
def opEvent (c : Channel) (t : TimeBin) (e : Energy) : List Stx9 := opEventR 0#1 c t e

/-- `CLOCK k`. -/
def opClock (k : Word) : List Stx9 := opWord k

/-- `PAIR c, t, e, k`. -/
def opPair (c : Channel) (t : TimeBin) (e : Energy) (k : Word) : List Stx9 := opEvent c t e ++ opClock k

/-- `START`. -/
def opStart : Htx56 := opWr 0x000000#23 0x00000001#32

/-- `STATUS`. -/
def opStatus : Htx56 := opRd 0x000001#23

/-- `RDAMP c, e`. -/
def opRdAmp (c : Channel) (e : Energy) : Htx56 := opRd (ampWindowAddr c e)

/-- `RDTDC c, t`. -/
def opRdTdc (c : Channel) (t : TimeBin) : Htx56 := opRd (tdcWindowAddr c t)

/-- The reads of the whole amplitude table in the order of spec/44_host_interface.md R194: row by row, column by column. -/
def readoutAmp : List Htx56 :=
  (List.range ampCells).map fun k => opRdAmp (BitVec.ofNat 9 (k / nEnergyBins)) (BitVec.ofNat 12 (k % nEnergyBins))

/-- The reads of the whole timing table in the order of R194. -/
def readoutTdc : List Htx56 :=
  (List.range tdcCells).map fun k => opRdTdc (BitVec.ofNat 9 (k / nTimeBins)) (BitVec.ofNat 10 (k % nTimeBins))

end Sys2Proof
end

