-- ==== Sys2Proof/Machine/State.lean ====
section
/-! DEFINITION. The state of the block (spec/10_state.md R34, R35), the two ports' pending transactions that the model
keeps beside it (spec/20_memory.md R64), and the state right after reset (spec/70_reset_and_hazards.md R250). Plain data. -/

namespace Sys2Proof.Machine

/-- STATE (R22). -/
inductive RunState
  | idle   -- after reset, no run started
  | accum  -- a run is in progress
  | done   -- the run ended on a pair boundary, tables readable
  | error  -- the run ended inside a word or a pair
  deriving DecidableEq, Repr

/-- The 2-bit value of STATE (R22). -/
def RunState.code : RunState → BitVec 2
  | .idle => 0#2
  | .accum => 1#2
  | .done => 2#2
  | .error => 3#2

/-- The error events (spec/60_exceptions.md R220). -/
inductive ErrorEvent
  | trunc   -- end of stream inside a word or a pair
  | sat     -- a cell increment at 2^CW - 1
  | cntsat  -- a counter increment at 0xFFFFFFFF
  | accerr  -- an illegal host access
  deriving DecidableEq, Repr

/-- The code of an error event is its STATUS bit position (R220). -/
def ErrorEvent.code : ErrorEvent → Nat
  | .trunc => 2
  | .sat => 3
  | .cntsat => 4
  | .accerr => 5

/-- What the cells that a memory does not list hold: no value after RESET, 0 after START (R33). -/
inductive Fill
  | unspec
  | zero
  deriving DecidableEq, Repr

/-- What an unlisted address of a histogram RAM reads as (R33): `none` is UNSPEC. -/
def Fill.value : Fill → Option Word
  | .unspec => none
  | .zero => some 0#32

/-- A listed cell: its RAM address (R55) and its value, zero-extended to 32 bits (assumption 2). -/
abbrev MemCell := Nat × Word

/-- A histogram RAM (R32, R55): the listed cells, by rising address, over what every other cell holds. -/
structure Memory where
  fill : Fill
  cells : List MemCell
  deriving DecidableEq, Repr

/-- Every cell UNSPEC: the content after RESET (R33, R250). -/
def Memory.unspecified : Memory := ⟨.unspec, []⟩

/-- Every cell 0: the content after START (R33, R182). -/
def Memory.zeroed : Memory := ⟨.zero, []⟩

/-- The canonical form: addresses strictly rising and below `size`, and no entry equal to what an unlisted address
reads as. -/
abbrev Memory.wf (size : Nat) (m : Memory) : Prop :=
  m.cells.Pairwise (fun a b => a.1 < b.1) ∧ ∀ c ∈ m.cells, c.1 < size ∧ m.fill.value ≠ some c.2

/-- Every listed cell fits CW bits (R6, R32). -/
abbrev Memory.fits (cw : CellWidth) (m : Memory) : Prop := ∀ c ∈ m.cells, c.2.toNat ≤ cw.maxCount

/-- Which agent's transaction comes next in the total order (R35, R64). -/
inductive Turn
  | producer     -- the stream producer's offered transfer
  | host         -- the host's issued access
  | resetSignal  -- the RESET signal
  deriving DecidableEq, Repr

/-- The state: the twelve elements of R35 and the configuration; then the model's own record of the two ports (the data
the last host read returned, and the transactions the agents have pending), which is no state of the block. -/
structure State where
  config : Config
  runState : RunState          -- STATE
  bytePos : BitVec 3           -- BYTEPOS
  abuf : Word                  -- ABUF
  clockLast : Word             -- CLOCK_LAST
  pairCount : Word             -- PAIR_COUNT
  rsvdCount : Word             -- RSVD_COUNT
  trunc : Bool                 -- TRUNC
  sat : Bool                   -- SAT
  cntsat : Bool                -- CNTSAT
  accerr : Bool                -- ACCERR
  amp : Memory                 -- AMP
  tdc : Memory                 -- TDC
  q : Word                     -- Q[31:0] as the last host read returned it
  streamOffers : List Stx9     -- the producer's transfers not yet accepted, in the order offered
  hostIssues : List Htx56      -- the host's accesses not yet performed, in the order issued
  schedule : List Turn         -- the order in which the agents' transactions take effect
  deriving DecidableEq, Repr

/-- Why the machine stops with a fault. -/
inductive Fault
  /-- Raised by EVENT_WORD, H_RD_AMP and H_RD_TDC on a cell that is UNSPEC (spec/93_implementation_defined.md item 1:
  "`fault` if ever read"). No reachable transaction raises it (R33). Safe: the machine stops where the spec gives the
  cell no value. -/
  | unspecCell
  deriving DecidableEq, Repr

/-- Why an instruction has no meaning. -/
inductive Refusal
  /-- Raised by an arm of exec whose instruction has no meaning yet; no arm is left so. Safe. -/
  | notModelled (mnemonic : String)
  deriving DecidableEq, Repr

/-- What a meaning answers. -/
abbrev Result := Host.Outcome State Fault Refusal

/-- What the next turn of the schedule brings. -/
inductive Fetched
  | idle (s : State)              -- no transaction is offered
  | reset (s : State)             -- the RESET signal
  | run (i : Instr) (s : State)   -- a transaction of the stream or the host port, decoded
  deriving DecidableEq, Repr

/-- The state right after RESET (R34, R250) of a block with configuration `cfg`, with nothing offered on its ports. -/
def State.resetWith (cfg : Config) : State where
  config := cfg
  runState := .idle
  bytePos := 0#3
  abuf := 0#32
  clockLast := 0#32
  pairCount := 0#32
  rsvdCount := 0#32
  trunc := false
  sat := false
  cntsat := false
  accerr := false
  amp := Memory.unspecified
  tdc := Memory.unspecified
  q := 0#32
  streamOffers := []
  hostIssues := []
  schedule := []

/-- The machine right after reset, at the spec's default cell width (R6). -/
def State.reset : State := State.resetWith ⟨CellWidth.default⟩

end Sys2Proof.Machine
end

