-- ==== Sys2Proof/Machine/Operands.lean ====
section
/-! DEFINITION. Operand forms: the byte lanes of the assembly buffer, the RAM addresses of the two tables, and the
register views the host reads. -/

namespace Sys2Proof.Machine

/-- `BYTEPOS[1:0]`: the byte lane of the word being assembled (spec/40_word_reader.md R101). -/
def byteLane (pos : BitVec 3) : BitVec 2 := pos.extractLsb' 0 2

/-- `ABUF[8k+7:8k] <- d` (R101): lane `k` of `w` replaced by `d`, the other lanes kept. -/
def setLane (w : Word) (k : BitVec 2) (d : Byte) : Word :=
  (w &&& ~~~(0xFF#32 <<< (8 * k.toNat))) ||| (d.setWidth 32 <<< (8 * k.toNat))

/-- RAM address of `AMP[c][e]`: `{c[8:0], e[11:0]}` (spec/20_memory.md R55). -/
def ampAddr (c : Channel) (e : Energy) : Nat := (c ++ e : BitVec 21).toNat

/-- RAM address of `TDC[c][t]`: `{c[8:0], t[9:0]}` (R55). -/
def tdcAddr (c : Channel) (t : TimeBin) : Nat := (c ++ t : BitVec 19).toNat

/-- STATUS (spec/10_state.md R29): `{21'b0, BYTEPOS, 2'b00, ACCERR, CNTSAT, SAT, TRUNC, STATE}`. -/
def State.statusWord (s : State) : Word :=
  (s.bytePos.setWidth 32 <<< 8) ||| ((BitVec.ofBool s.accerr).setWidth 32 <<< 5) |||
    ((BitVec.ofBool s.cntsat).setWidth 32 <<< 4) ||| ((BitVec.ofBool s.sat).setWidth 32 <<< 3) |||
    ((BitVec.ofBool s.trunc).setWidth 32 <<< 2) ||| s.runState.code.setWidth 32

/-- CONFIG (R31): `(12 << 16) | (10 << 12) | (9 << 8) | CW`. -/
def Config.word (cfg : Config) : Word :=
  (12#32 <<< 16) ||| (10#32 <<< 12) ||| (9#32 <<< 8) ||| BitVec.ofNat 32 cfg.cw.bits

end Sys2Proof.Machine
end

