-- ==== Sys2Proof/Machine/Flags.lean ====
section
/-! DEFINITION. The saturating increment and the four sticky flags (spec/00_scope.md R10, spec/10_state.md R28,
spec/60_exceptions.md R220). -/

namespace Sys2Proof.Machine

/-- `sat_inc_W(x)` (R10): `(x + 1, 0)` below `2^W - 1`, else `(x, 1)`. -/
def satInc (width : Nat) (x : Word) : Word × Bool :=
  if x.toNat < 2 ^ width - 1 then (x + 1#32, false) else (x, true)

/-- `raise E` (R220): TAKING AN ERROR EVENT, the block's only exception. It sets the flag of `E`; TRUNC also enters
ERROR, and every other element keeps its value (R221, R229). -/
def State.raise (ev : ErrorEvent) (s : State) : State :=
  match ev with
  | .trunc => { s with trunc := true, runState := .error }
  | .sat => { s with sat := true }
  | .cntsat => { s with cntsat := true }
  | .accerr => { s with accerr := true }

/-- `if ovf = 1 then E <- 1` (R154 to R157). -/
def State.raiseIf (ovf : Bool) (ev : ErrorEvent) (s : State) : State := if ovf then s.raise ev else s

end Sys2Proof.Machine
end

