-- ==== Sys2Proof/Machine/Ops.lean ====
section
/-! DEFINITION. The shared operations: the histogram RAMs, the counters, the event and clock actions, starting and
resetting, replies of the host port, and fetching the next transaction. Taking an error event is `State.raise`
(Flags.lean); the ways out of ERROR are `State.start` and `State.takeReset` here (spec/60_exceptions.md R230). -/

namespace Sys2Proof.Machine

/-! ## Histogram RAM -/

/-- The listed value of an address. -/
def Memory.lookup : List MemCell → Nat → Option Word
  | [], _ => none
  | (a, v) :: rest, ra => if a = ra then some v else Memory.lookup rest ra

/-- One cell; `none` is UNSPEC (R35). -/
def Memory.read (m : Memory) (ra : Nat) : Option Word :=
  match Memory.lookup m.cells ra with
  | some v => some v
  | none => m.fill.value

/-- List `ra` with value `v`, keeping the addresses rising. -/
def Memory.insertCell : List MemCell → Nat → Word → List MemCell
  | [], ra, v => [(ra, v)]
  | (a, u) :: rest, ra, v =>
    if ra < a then (ra, v) :: (a, u) :: rest
    else if ra = a then (ra, v) :: rest
    else (a, u) :: Memory.insertCell rest ra v

/-- List `ra` no more. -/
def Memory.removeCell : List MemCell → Nat → List MemCell
  | [], _ => []
  | (a, u) :: rest, ra => if a = ra then rest else (a, u) :: Memory.removeCell rest ra

/-- Write one cell, keeping the canonical form. -/
def Memory.write (m : Memory) (ra : Nat) (v : Word) : Memory :=
  if m.fill.value = some v then { m with cells := Memory.removeCell m.cells ra }
  else { m with cells := Memory.insertCell m.cells ra v }

/-- The read-modify-write of one cell (spec/43_accumulator.md R154, R155): the RAM after it and whether the cell
saturated; `none` when the cell is UNSPEC. -/
def Memory.increment (cw : CellWidth) (m : Memory) (ra : Nat) : Option (Memory × Bool) :=
  match m.read ra with
  | none => none
  | some v => some (m.write ra (satInc cw.bits v).1, (satInc cw.bits v).2)

/-! ## Sequencing -/

/-- Go on with the next state; a fault or a refusal stops. -/
def andThen (r : Result) (f : State → Result) : Result :=
  match r with
  | .next s => f s
  | .fault x => .fault x
  | .refused x => .refused x

/-! ## The accumulator -/

/-- INCR_AMP (R154). -/
def State.incrAmp (c : Channel) (e : Energy) (s : State) : Result :=
  match s.amp.increment s.config.cw (ampAddr c e) with
  | none => .fault .unspecCell
  | some (m, ovf) => .next (State.raiseIf ovf .sat { s with amp := m })

/-- INCR_TDC (R155). -/
def State.incrTdc (c : Channel) (t : TimeBin) (s : State) : Result :=
  match s.tdc.increment s.config.cw (tdcAddr c t) with
  | none => .fault .unspecCell
  | some (m, ovf) => .next (State.raiseIf ovf .sat { s with tdc := m })

/-- RSVD_NOTE (R156). -/
def State.rsvdNote (s : State) : State :=
  State.raiseIf (satInc 32 s.rsvdCount).2 .cntsat { s with rsvdCount := (satInc 32 s.rsvdCount).1 }

/-- PAIR_DONE (R157). -/
def State.pairDone (s : State) : State :=
  State.raiseIf (satInc 32 s.pairCount).2 .cntsat { s with pairCount := (satInc 32 s.pairCount).1 }

/-- EVENT_WORD after EXTRACT (R153): both increments, and RSVD_NOTE when `r = 1`. -/
def State.eventAction (f : EventFields) (s : State) : Result :=
  andThen (s.incrAmp f.channel f.energy) fun s1 =>
    andThen (s1.incrTdc f.channel f.time) fun s2 => .next (if f.r = 1#1 then s2.rsvdNote else s2)

/-- CLOCK_WORD (spec/42_clock_decoder.md R141): capture the word, count the pair. -/
def State.clockAction (w : Word) (s : State) : State := State.pairDone { s with clockLast := w }

/-! ## The word assembler -/

/-- Whether the stream port accepts a transfer (spec/40_word_reader.md R102): only in ACCUM. -/
def State.streamReady (s : State) : Bool := s.runState == .accum

/-- ABUF with the byte in its lane (R101). -/
def State.abufWith (s : State) (d : Byte) : Word := setLane s.abuf (byteLane s.bytePos) d

/-- `BYTEPOS <- (BYTEPOS + 1) mod 8` (R101). -/
def State.advance (s : State) : State := { s with bytePos := s.bytePos + 1#3 }

/-- The effect of an accepted S_BYTE (R101): store the byte; at BYTEPOS 3 the event word is complete (R103), at 7 the
clock word (R104). -/
def State.acceptByte (d : Byte) (s : State) : Result :=
  if s.bytePos = 3#3 then
    andThen (State.eventAction (extract (s.abufWith d)) { s with abuf := 0#32 }) fun s1 => .next s1.advance
  else if s.bytePos = 7#3 then .next (State.clockAction (s.abufWith d) { s with abuf := 0#32 }).advance
  else .next { s with abuf := s.abufWith d }.advance

/-- The effect of an accepted S_EOS (R106). -/
def State.endStream (s : State) : State :=
  if s.bytePos = 0#3 then { s with runState := .done } else s.raise .trunc

/-! ## The host port -/

/-- The read data `Q` of a host read (spec/30_encoding.md R84). -/
def State.reply (v : Word) (s : State) : State := { s with q := v }

/-- An illegal read (spec/60_exceptions.md R224): `Q <- 0; raise ACCERR`. -/
def State.illegalRead (s : State) : State := (s.reply 0#32).raise .accerr

/-- A read of a table window (spec/44_host_interface.md R191, R192): the cell in DONE, an illegal access otherwise. An
UNSPEC cell has no value to return (spec/93_implementation_defined.md item 1). -/
def State.tableRead (cell : Option Word) (s : State) : Result :=
  if s.runState = .done then
    match cell with
    | none => .fault .unspecCell
    | some v => .next (s.reply v)
  else .next s.illegalRead

/-- START (R182): the whole of its pseudocode. -/
def State.start (s : State) : State :=
  { s with
    amp := Memory.zeroed, tdc := Memory.zeroed
    bytePos := 0#3, abuf := 0#32
    clockLast := 0#32, pairCount := 0#32, rsvdCount := 0#32
    trunc := false, sat := false, cntsat := false, accerr := false
    runState := .accum }

/-- RESET (spec/70_reset_and_hazards.md R250): the whole of its effect. Offered transfers stay offered. -/
def State.takeReset (s : State) : State :=
  { s with
    runState := .idle
    bytePos := 0#3, abuf := 0#32
    clockLast := 0#32, pairCount := 0#32, rsvdCount := 0#32
    trunc := false, sat := false, cntsat := false, accerr := false
    amp := Memory.unspecified, tdc := Memory.unspecified }

/-! ## Fetching the next transaction (spec/20_memory.md R64) -/

/-- The next turn of the schedule, taken from its agent's pending transactions in the order that agent issued them. A
transfer offered while the stream port is not ready stays offered (R102). -/
def State.fetch (s : State) : Fetched :=
  match s.schedule with
  | [] => .idle s
  | .resetSignal :: turns => .reset { s with schedule := turns }
  | .producer :: turns =>
    match s.streamOffers with
    | [] => .idle { s with schedule := turns }
    | x :: rest =>
      .run (decode (.stx9 x)) { s with schedule := turns, streamOffers := if s.streamReady then rest else x :: rest }
  | .host :: turns =>
    match s.hostIssues with
    | [] => .idle { s with schedule := turns }
    | h :: rest => .run (decode (.htx56 h)) { s with schedule := turns, hostIssues := rest }

/-- The producer offers `x` before its other transfers, and has the next turn. -/
def State.offerNext (x : Stx9) (s : State) : State :=
  { s with schedule := .producer :: s.schedule, streamOffers := x :: s.streamOffers }

/-- The host issues `h` before its other accesses, and has the next turn. -/
def State.issueNext (h : Htx56) (s : State) : State :=
  { s with schedule := .host :: s.schedule, hostIssues := h :: s.hostIssues }

/-- A state in which stream transfers are accepted: the state itself in ACCUM, else the state after START. -/
def State.inRun (s : State) : State := if s.runState = .accum then s else s.start

/-- Bring a word as the next transaction of its format. A stream transfer is accepted in a run only (R102); an event
word is one whose first three bytes have been accepted, and whose last byte is offered next (R103). -/
def State.place (f : Format) (v : Nat) (s : State) : State :=
  match f with
  | .stx9 => s.inRun.offerNext (BitVec.ofNat 9 v)
  | .evt32 => { s.inRun with bytePos := 3#3, abuf := BitVec.ofNat 32 (v % 16777216) }.offerNext
      (opByte (BitVec.ofNat 8 (v / 16777216)))
  | .clk32 => { s.inRun with bytePos := 7#3, abuf := BitVec.ofNat 32 (v % 16777216) }.offerNext
      (opByte (BitVec.ofNat 8 (v / 16777216)))
  | .htx56 => s.issueNext (BitVec.ofNat 56 v)

end Sys2Proof.Machine
end

