-- ==== Sys2Proof/Machine/HostPort.lean ====
section
/-! DEFINITION. The twelve host operations (spec/44_host_interface.md R182 to R193). A host transaction is accepted in
every state (R180). -/

namespace Sys2Proof.Machine

/-- H_START (R182). `D[31:1]` is ignored. -/
def execHStart (_dc : BitVec 31) (s : State) : Result := .next s.start

/-- H_WR_CTRL_NOP (R183): no state changes. -/
def execHWrCtrlNop (_dc : BitVec 31) (s : State) : Result := .next s

/-- H_WR_ILLEGAL (R184): `raise ACCERR`, and nothing else. -/
def execHWrIllegal (_a : HostAddr) (_d : Word) (s : State) : Result := .next (s.raise .accerr)

/-- H_RD_CTRL (R185): CTRL holds no state and reads 0. -/
def execHRdCtrl (_dc : Word) (s : State) : Result := .next (s.reply 0#32)

/-- H_RD_STATUS (R186). -/
def execHRdStatus (_dc : Word) (s : State) : Result := .next (s.reply s.statusWord)

/-- H_RD_CLOCK_LAST (R187). -/
def execHRdClockLast (_dc : Word) (s : State) : Result := .next (s.reply s.clockLast)

/-- H_RD_PAIR_COUNT (R188). -/
def execHRdPairCount (_dc : Word) (s : State) : Result := .next (s.reply s.pairCount)

/-- H_RD_RSVD_COUNT (R189). -/
def execHRdRsvdCount (_dc : Word) (s : State) : Result := .next (s.reply s.rsvdCount)

/-- H_RD_CONFIG (R190). -/
def execHRdConfig (_dc : Word) (s : State) : Result := .next (s.reply (Config.word s.config))

/-- H_RD_AMP (R191): `zext_32(AMP[c][e])` in DONE. -/
def execHRdAmp (c : Channel) (e : Energy) (_dc : Word) (s : State) : Result := s.tableRead (s.amp.read (ampAddr c e))

/-- H_RD_TDC (R192): `zext_32(TDC[c][t])` in DONE. -/
def execHRdTdc (c : Channel) (t : TimeBin) (_dc : Word) (s : State) : Result := s.tableRead (s.tdc.read (tdcAddr c t))

/-- H_RD_RESERVED (R193): `Q <- 0; raise ACCERR`. -/
def execHRdReserved (_a : HostAddr) (_dc : Word) (s : State) : Result := .next s.illegalRead

end Sys2Proof.Machine
end

