-- ==== Sys2Proof/Machine/Stream.lean ====
section
/-! DEFINITION. The stream port's operations S_BYTE and S_EOS (spec/40_word_reader.md) and the two positional word
operations EVENT_WORD and CLOCK_WORD that take effect inside S_BYTE (spec/43_accumulator.md, spec/42_clock_decoder.md). -/

namespace Sys2Proof.Machine

/-- S_BYTE (R101). Outside ACCUM it is not accepted and no state changes (R102). -/
def execSByte (d : Byte) (s : State) : Result :=
  if s.streamReady then s.acceptByte d else .next s

/-- S_EOS (R106). Outside ACCUM it is not accepted and no state changes (R102). `d` is ignored (R83). -/
def execSEos (_dc : Byte) (s : State) : Result :=
  if s.streamReady then .next s.endStream else .next s

/-- EVENT_WORD (R153): its own action, as S_BYTE performs it when the event word completes (assumption 9). -/
def execEventWord (r : BitVec 1) (c : Channel) (t : TimeBin) (e : Energy) (s : State) : Result :=
  s.eventAction ⟨r, c, t, e⟩

/-- CLOCK_WORD (R141): its own action, as S_BYTE performs it when the clock word completes (assumption 9). -/
def execClockWord (w : Word) (s : State) : Result := .next (s.clockAction w)

end Sys2Proof.Machine
end

