-- ==== Sys2Proof/Machine/Dispatch.lean ====
section
/-! DEFINITION. One arm per operation of spec/opcode_table.json, in the table's order. -/

namespace Sys2Proof.Machine

def exec (i : Instr) (s : State) : Host.Outcome State Fault Refusal :=
  match i with
  | .sByte d => Sys2Proof.Machine.execSByte d s
  | .sEos dc => Sys2Proof.Machine.execSEos dc s
  | .eventWord r c t e => Sys2Proof.Machine.execEventWord r c t e s
  | .clockWord w => Sys2Proof.Machine.execClockWord w s
  | .hStart dc => Sys2Proof.Machine.execHStart dc s
  | .hWrCtrlNop dc => Sys2Proof.Machine.execHWrCtrlNop dc s
  | .hWrIllegal a d => Sys2Proof.Machine.execHWrIllegal a d s
  | .hRdCtrl dc => Sys2Proof.Machine.execHRdCtrl dc s
  | .hRdStatus dc => Sys2Proof.Machine.execHRdStatus dc s
  | .hRdClockLast dc => Sys2Proof.Machine.execHRdClockLast dc s
  | .hRdPairCount dc => Sys2Proof.Machine.execHRdPairCount dc s
  | .hRdRsvdCount dc => Sys2Proof.Machine.execHRdRsvdCount dc s
  | .hRdConfig dc => Sys2Proof.Machine.execHRdConfig dc s
  | .hRdAmp c e dc => Sys2Proof.Machine.execHRdAmp c e dc s
  | .hRdTdc c t dc => Sys2Proof.Machine.execHRdTdc c t dc s
  | .hRdReserved a dc => Sys2Proof.Machine.execHRdReserved a dc s

end Sys2Proof.Machine
end

