-- ==== Sys2Proof/Machine/Step.lean ====
section
/-! DEFINITION. One step of the machine: the next transaction of the total order (spec/00_scope.md R11,
spec/20_memory.md R64), taken atomically. -/

namespace Sys2Proof.Machine

/-- One step. With no transaction offered the block keeps its state (assumption 7). -/
def step (s : State) : Host.Outcome State Fault Refusal :=
  match s.fetch with
  | .idle s' => .next s'
  | .reset s' => .next s'.takeReset
  | .run i s' => exec i s'

/-- `s` with the table word `w` of `nbits` bits as the transaction its next step takes (assumption 11). -/
def State.withFetchWord (s : State) (nbits w : Nat) : State :=
  match tableFormat nbits with
  | none => s
  | some f => s.place f w

end Sys2Proof.Machine
end

