-- ==== Sys2Proof/Safety.lean ====
section
/-! DEFINITION. The terms claims are stated in: which transaction a step takes, which host accesses are illegal, running
a list of operations, what a table holds in sum, and the invariants of the reachable states (spec/10_state.md R37). -/

namespace Sys2Proof.Machine

/-! ## Which transaction the next step takes -/

/-- The next step takes the RESET signal. -/
def State.takesReset (s : State) : Prop := s.schedule.head? = some .resetSignal

/-- The next step takes the host access `h`. -/
def State.takesAccess (s : State) (h : Htx56) : Prop := s.schedule.head? = some .host ∧ s.hostIssues.head? = some h

/-- The next step takes a host write of 1 to CTRL bit 0: a START (spec/30_encoding.md R87). -/
def State.takesStart (s : State) : Prop :=
  ∃ h, s.takesAccess h ∧ htxWe h = 1#1 ∧ htxAddr h = 0x000000#23 ∧ h.getLsbD 0 = true

/-- The next step accepts the stream transfer `x` (spec/40_word_reader.md R102). -/
def State.acceptsTransfer (s : State) (x : Stx9) : Prop :=
  s.runState = .accum ∧ s.schedule.head? = some .producer ∧ s.streamOffers.head? = some x

/-! ## Host accesses (spec/60_exceptions.md R224, spec/20_memory.md R60) -/

/-- The operation is one of the host port's. -/
def isHostOp : Instr → Bool
  | .sByte _ => false
  | .sEos _ => false
  | .eventWord _ _ _ _ => false
  | .clockWord _ => false
  | .hStart _ => true
  | .hWrCtrlNop _ => true
  | .hWrIllegal _ _ => true
  | .hRdCtrl _ => true
  | .hRdStatus _ => true
  | .hRdClockLast _ => true
  | .hRdPairCount _ => true
  | .hRdRsvdCount _ => true
  | .hRdConfig _ => true
  | .hRdAmp _ _ _ => true
  | .hRdTdc _ _ _ => true
  | .hRdReserved _ _ => true

/-- An address of one of the two table windows (R60). -/
def tableWindowAddr (a : HostAddr) : Bool :=
  (0x200000#23 ≤ a && a ≤ 0x3FFFFF#23) || (0x400000#23 ≤ a && a ≤ 0x47FFFF#23)

/-- The illegal host accesses, from R224's list: a write to any address other than CTRL, a read of a reserved address, a
read of a table window while STATE is not DONE. -/
def illegalAccess (h : Htx56) (s : State) : Bool :=
  if htxWe h = 1#1 then htxAddr h != 0#23
  else reservedAddr (htxAddr h) || (tableWindowAddr (htxAddr h) && s.runState != .done)

/-! ## Running operations, and what they count -/

/-- Operations one after another, each an atomic transaction. -/
def runAll : List Instr → State → Result
  | [], s => .next s
  | i :: rest, s => andThen (exec i s) (runAll rest)

/-- The event word selects the amplitude cell `[c][e]` (spec/43_accumulator.md R152). -/
def selectsAmp (c : Channel) (e : Energy) (w : Word) : Bool := (extract w).channel == c && (extract w).energy == e

/-- The event word selects the timing cell `[c][t]` (R152). -/
def selectsTdc (c : Channel) (t : TimeBin) (w : Word) : Bool := (extract w).channel == c && (extract w).time == t

/-- Every cell of both tables holds a value (R33). -/
def State.cellsDefined (s : State) : Prop :=
  (∀ c e, (s.amp.read (ampAddr c e)).isSome = true) ∧ ∀ c t, (s.tdc.read (tdcAddr c t)).isSome = true

/-- Every cell of both tables is UNSPEC (R33). -/
def State.cellsUnspec (s : State) : Prop :=
  (∀ c e, s.amp.read (ampAddr c e) = none) ∧ ∀ c t, s.tdc.read (tdcAddr c t) = none

/-- Every cell of both tables is 0. -/
def State.cellsZero (s : State) : Prop :=
  (∀ c e, s.amp.read (ampAddr c e) = some 0#32) ∧ ∀ c t, s.tdc.read (tdcAddr c t) = some 0#32

/-- The count a cell stands for in a sum. -/
def cellCount (cell : Option Word) : Nat :=
  match cell with
  | none => 0
  | some v => v.toNat

/-- `sum over c,e of AMP[c][e]` (R37). -/
def State.ampTotal (s : State) : Nat := ∑ c : Fin 512, ∑ e : Fin 4096, cellCount (s.amp.read (ampAddr (.ofFin c) (.ofFin e)))

/-- `sum over c,t of TDC[c][t]` (R37). -/
def State.tdcTotal (s : State) : Nat := ∑ c : Fin 512, ∑ t : Fin 1024, cellCount (s.tdc.read (tdcAddr (.ofFin c) (.ofFin t)))

/-- The event words completed in the run: `PAIR_COUNT + (1 if BYTEPOS >= 4 else 0)` (R37). -/
def State.eventsCompleted (s : State) : Nat := s.pairCount.toNat + if 4 ≤ s.bytePos.toNat then 1 else 0

/-! ## The invariants -/

/-- The seven invariants of R37, by number. -/
structure State.Inv (s : State) : Prop where
  /-- Item 1. -/
  idleClear : s.runState = .idle →
    s.bytePos = 0#3 ∧ s.abuf = 0#32 ∧ s.clockLast = 0#32 ∧ s.pairCount = 0#32 ∧ s.rsvdCount = 0#32 ∧
      s.trunc = false ∧ s.sat = false ∧ s.cntsat = false ∧ s.cellsUnspec
  /-- Item 2. -/
  definedAfterStart : s.runState ≠ .idle → s.cellsDefined
  /-- Item 3. -/
  abufBelow : s.abuf.toNat < 2 ^ (8 * (s.bytePos.toNat % 4))
  /-- Item 4. -/
  doneOnBoundary : s.runState = .done → s.bytePos = 0#3 ∧ s.trunc = false
  /-- Item 5. -/
  errorInside : s.runState = .error → s.bytePos ≠ 0#3 ∧ s.trunc = true
  /-- Item 6. -/
  truncIff : s.trunc = true ↔ s.runState = .error
  /-- Item 7. -/
  sums : s.runState ≠ .idle → s.sat = false → s.cntsat = false →
    s.ampTotal = s.eventsCompleted ∧ s.tdcTotal = s.eventsCompleted

/-- The model's own invariant of the two memories: the canonical form, and cells that fit CW bits (assumptions 2, 3). -/
structure State.TablesCanonical (s : State) : Prop where
  ampWf : s.amp.wf ampCells
  tdcWf : s.tdc.wf tdcCells
  ampFits : s.amp.fits s.config.cw
  tdcFits : s.tdc.fits s.config.cw

end Sys2Proof.Machine
end

