-- ==== Sys2Proof/Certificates/Slice0/Obligations.lean ====
section
/-! DEFINITION. The statements for the provers. Each docstring names the rule it formalises or the model's choice it
rests on. "Next state" equations over a record update are frames: every field not named is unchanged. -/

open Sys2Proof Sys2Proof.Machine

/-! ## Encoding -/

/-- Decoding an encoded well-formed operation gives it back, every operand at every value (R83 to R87). That the ignored
bits are operands too is the model's choice (assumption 12). -/
def Obligations.DecodeOfEncodeIsTheInstruction : Prop :=
  ∀ i : Instr, i.wellFormed = true → decode (encode i) = i

/-- Every bit pattern of every format decodes to a well-formed operation (R86, R87, R89: "No encoding is undefined"), and
encoding that operation gives the pattern back. The second clause is the model's choice for the bits the spec ignores:
the syntax keeps them (assumption 12), where R84 calls `D` of a read "don't care, and encoded as 0". -/
def Obligations.EncodeOfDecodeIsTheEncoding : Prop :=
  ∀ x : Encoding, encode (decode x) = x ∧ (decode x).wellFormed = true

/-- The same round trip through the bytes of an encoding; a string of another length and a bit above the format's width
are rejected by name. The byte framing is the model's choice (assumption 10). -/
def Obligations.DecodeBytesRoundTrip : Prop :=
  (∀ i : Instr, i.wellFormed = true → decodeBytes (encode i).format (encodeBytes i) = .ok i) ∧
  (∀ (f : Format) (bs : List Byte), bs.length ≠ f.bytes → decodeBytes f bs = .error .wrongLength) ∧
  (∀ (f : Format) (bs : List Byte), bs.length = f.bytes → 2 ^ f.width ≤ leNat bs → decodeBytes f bs = .error .strayBits)

/-- R87: the operation is that of the matching row with the most fixed bits, the rows that match one value are nested,
and so the choice is unique. The rows are those of spec/opcode_table.json. -/
def Obligations.HostDecodeIsTheMostSpecificRow : Prop :=
  ∀ h : Htx56,
    opcodeRow (decode (.htx56 h)) ∈ htxRows ∧ (opcodeRow (decode (.htx56 h))).accepts h = true ∧
    (∀ row ∈ htxRows, row.accepts h = true → row ≠ opcodeRow (decode (.htx56 h)) →
      row.fixedBits < (opcodeRow (decode (.htx56 h))).fixedBits) ∧
    ∀ row ∈ htxRows, ∀ row' ∈ htxRows, row.accepts h = true → row'.accepts h = true →
      row.mask &&& row'.mask = row.mask ∨ row.mask &&& row'.mask = row'.mask

/-- R83: bit 8 tells a data byte from the end-of-stream marker, bits 7:0 are the data byte, and `d` is ignored when
`eos = 1`. -/
def Obligations.StreamTransferDecode : Prop :=
  (∀ x : Stx9, x.getLsbD 8 = false → decode (.stx9 x) = .sByte (x.setWidth 8)) ∧
  (∀ x : Stx9, x.getLsbD 8 = true → decode (.stx9 x) = .sEos (x.setWidth 8)) ∧
  ∀ (d d' : Byte) (s : State), exec (.sEos d) s = exec (.sEos d') s

/-- Words written out from the spec's encodings (95_test_vectors.md) decode to the operations they stand for. -/
def Obligations.SpecWordsDecode : Prop :=
  decode (.stx9 0x0FF#9) = .sByte 0xFF#8 ∧ decode (.stx9 0x100#9) = .sEos 0#8 ∧
  decode (.evt32 0x04030201#32) = .eventWord 0#1 16#9 48#10 513#12 ∧
  decode (.evt32 0xDEADBEEF#32) = .eventWord 1#1 378#9 731#10 3823#12 ∧
  decode (.htx56 0x80000000000001#56) = .hStart 0#31 ∧
  decode (.htx56 0x2010FF00000000#56) = .hRdAmp 1#9 255#12 0#32 ∧
  decode (.htx56 0x40080700000000#56) = .hRdTdc 2#9 7#10 0#32 ∧
  decode (.htx56 0x48000000000000#56) = .hRdReserved 0x480000#23 0#32

/-- R121: EXTRACT's fields are the source's shifts and masks. -/
def Obligations.ExtractIsShiftAndMask : Prop :=
  ∀ w : Word,
    (extract w).r.setWidth 32 = (w >>> 31) &&& 0x1#32 ∧
    (extract w).channel.setWidth 32 = (w >>> 22) &&& 0x1FF#32 ∧
    (extract w).time.setWidth 32 = (w >>> 12) &&& 0x3FF#32 ∧
    (extract w).energy.setWidth 32 = w &&& 0xFFF#32

/-- R124: EXTRACT inverts the packing, both ways. -/
def Obligations.ExtractInvertsPacking : Prop :=
  (∀ (c : Channel) (t : TimeBin) (e : Energy),
    extract ((c.setWidth 32 <<< 22) ||| (t.setWidth 32 <<< 12) ||| e.setWidth 32) = ⟨0#1, c, t, e⟩) ∧
  ∀ w : Word, w = ((extract w).r.setWidth 32 <<< 31) ||| ((extract w).channel.setWidth 32 <<< 22) |||
    ((extract w).time.setWidth 32 <<< 12) ||| (extract w).energy.setWidth 32

/-- R60: the host addresses of the two windows name each cell once, and every window address names a cell. -/
def Obligations.WindowAddressesNameTheCells : Prop :=
  (∀ (a : HostAddr) (d : Word), 0x200000 ≤ a.toNat → a.toNat ≤ 0x3FFFFF →
    ∃ c e, decode (.htx56 (packHtx56 0#1 a d)) = .hRdAmp c e d ∧ ampAddr c e = a.toNat - 0x200000) ∧
  (∀ (a : HostAddr) (d : Word), 0x400000 ≤ a.toNat → a.toNat ≤ 0x47FFFF →
    ∃ c t, decode (.htx56 (packHtx56 0#1 a d)) = .hRdTdc c t d ∧ tdcAddr c t = a.toNat - 0x400000) ∧
  ∀ (a : HostAddr) (d : Word), (6 ≤ a.toNat ∧ a.toNat ≤ 0x1FFFFF) ∨ 0x480000 ≤ a.toNat →
    decode (.htx56 (packHtx56 0#1 a d)) = .hRdReserved a d

/-! ## The step -/

/-- A step runs the transaction that the schedule names next, decoded, on the state with that turn (and, where it is
accepted, the transfer or the access) taken off; it stands still where nothing is offered. The schedule is the model's
form of the total order (R64; assumptions 5 and 7). -/
def Obligations.StepRunsTheNextTransaction : Prop :=
  (∀ (s : State) (turns : List Turn) (h : Htx56) (rest : List Htx56),
    s.schedule = .host :: turns → s.hostIssues = h :: rest →
    step s = exec (decode (.htx56 h)) { s with schedule := turns, hostIssues := rest }) ∧
  (∀ (s : State) (turns : List Turn) (x : Stx9) (rest : List Stx9),
    s.schedule = .producer :: turns → s.streamOffers = x :: rest → s.runState = .accum →
    step s = exec (decode (.stx9 x)) { s with schedule := turns, streamOffers := rest }) ∧
  (∀ (s : State) (turns : List Turn), s.schedule = .host :: turns → s.hostIssues = [] →
    step s = .next { s with schedule := turns }) ∧
  (∀ (s : State) (turns : List Turn), s.schedule = .producer :: turns → s.streamOffers = [] →
    step s = .next { s with schedule := turns }) ∧
  ∀ s : State, s.schedule = [] → step s = .next s

/-- Outside ACCUM a stream transfer is not accepted, stays offered, and no state changes; when a later START enters ACCUM,
it is the first transfer of the new run (R102). R102 has no step there; that exec answers the unchanged state and that the
producer's turn is spent is the model's reading (assumption 6). -/
def Obligations.TransfersAreAcceptedInAccumOnly : Prop :=
  (∀ (s : State) (d : Byte), s.runState ≠ .accum →
    exec (.sByte d) s = .next s ∧ exec (.sEos d) s = .next s) ∧
  (∀ (s : State) (turns : List Turn), s.schedule = .producer :: turns → s.runState ≠ .accum →
    step s = .next { s with schedule := turns }) ∧
  ∀ (s : State) (x : Stx9) (rest : List Stx9) (d : Word) (hs : List Htx56) (turns : List Turn),
    s.runState ≠ .accum → s.streamOffers = x :: rest → d.getLsbD 0 = true →
    s.hostIssues = opWr 0x000000#23 d :: hs → s.schedule = .producer :: .host :: .producer :: turns →
    ∃ t, exec (.hStart 0#31) s = .next t ∧ t.runState = .accum ∧
      Host.Core.run Sys2Proof.core 3 s =
        exec (decode (.stx9 x)) { t with streamOffers := rest, hostIssues := hs, schedule := turns }

/-- Each port's transactions are taken in the order issued, one at a time, and the configuration never changes (the
ordering clause of R64, the constancy clause of R31). That a step takes the schedule's first turn is the model's choice
(assumption 5), and so is that issued host accesses stay pending through a RESET (assumption 14; R250 says so of the
transfers only). -/
def Obligations.StepKeepsIssueOrderAndConfig : Prop :=
  ∀ s t : State, step s = .next t →
    t.config = s.config ∧ t.schedule = s.schedule.tail ∧
    (t.streamOffers = s.streamOffers ∨ ((∃ x, s.acceptsTransfer x) ∧ t.streamOffers = s.streamOffers.tail)) ∧
    (t.hostIssues = s.hostIssues ∨ ((∃ h, s.takesAccess h) ∧ t.hostIssues = s.hostIssues.tail))

/-- R84, R30, R83: the ignored bits of a transaction (`D` of a read, `D[31:1]` of a CTRL write, `d` of an end of
stream) have no effect on the step that takes it. -/
def Obligations.IgnoredBitsHaveNoEffect : Prop :=
  (∀ (s : State) (turns : List Turn) (h h' : Htx56) (rest : List Htx56), s.schedule = .host :: turns →
    htxWe h = 0#1 → htxWe h' = 0#1 → htxAddr h = htxAddr h' →
    step { s with hostIssues := h :: rest } = step { s with hostIssues := h' :: rest }) ∧
  (∀ (s : State) (turns : List Turn) (h h' : Htx56) (rest : List Htx56), s.schedule = .host :: turns →
    htxWe h = 1#1 → htxWe h' = 1#1 → htxAddr h = 0#23 → htxAddr h' = 0#23 → h.getLsbD 0 = h'.getLsbD 0 →
    step { s with hostIssues := h :: rest } = step { s with hostIssues := h' :: rest }) ∧
  ∀ (s : State) (turns : List Turn) (x x' : Stx9) (rest : List Stx9), s.schedule = .producer :: turns →
    s.runState = .accum → x.getLsbD 8 = true → x'.getLsbD 8 = true →
    step { s with streamOffers := x :: rest } = step { s with streamOffers := x' :: rest }

/-! ## Reset -/

/-- R34: the reset value of every element of the block. (The ports' lists and `q` are the model's own fields and are
not claimed here.) -/
def Obligations.ResetValues : Prop :=
  ∀ s : State, (s = State.reset ∨ ∃ cfg, s = State.resetWith cfg) →
    s.runState.code = 0#2 ∧ s.bytePos = 0#3 ∧ s.abuf = 0#32 ∧ s.clockLast = 0#32 ∧ s.pairCount = 0#32 ∧
    s.rsvdCount = 0#32 ∧ s.trunc = false ∧ s.sat = false ∧ s.cntsat = false ∧ s.accerr = false ∧ s.cellsUnspec

/-- R250: the RESET transaction, in any state: its effect on every element of the block; offered transfers stay
offered, and the first of them is accepted after the host's next START. -/
def Obligations.ResetTransaction : Prop :=
  ∀ (s : State) (turns : List Turn), s.schedule = .resetSignal :: turns →
    ∃ t, step s = .next t ∧ t.runState = .idle ∧ t.bytePos = 0#3 ∧ t.abuf = 0#32 ∧ t.clockLast = 0#32 ∧
      t.pairCount = 0#32 ∧ t.rsvdCount = 0#32 ∧ t.trunc = false ∧ t.sat = false ∧ t.cntsat = false ∧
      t.accerr = false ∧ (∀ ra, t.amp.read ra = none) ∧ (∀ ra, t.tdc.read ra = none) ∧
      t.streamOffers = s.streamOffers ∧ t.config = s.config ∧
      ∀ (x : Stx9) (rest : List Stx9) (d : Word) (hs : List Htx56) (ts : List Turn),
        s.streamOffers = x :: rest → d.getLsbD 0 = true →
        ∃ v, exec (.hStart 0#31) t = .next v ∧
          Host.Core.run Sys2Proof.core 2
              { t with hostIssues := opWr 0x000000#23 d :: hs, schedule := .host :: .producer :: ts } =
            exec (decode (.stx9 x)) { v with streamOffers := rest, hostIssues := hs, schedule := ts }

/-! ## The word reader -/

/-- R101: S_BYTE in ACCUM. A byte that completes no word goes to its lane; the byte at BYTEPOS 3 completes the event
word and the byte at BYTEPOS 7 the clock word, each performed with ABUF already cleared; BYTEPOS advances modulo 8. -/
def Obligations.SByteInAccum : Prop :=
  ∀ (s : State) (d : Byte), s.runState = .accum →
    (s.bytePos ≠ 3#3 → s.bytePos ≠ 7#3 →
      ∃ a : Word, exec (.sByte d) s = .next { s with abuf := a, bytePos := s.bytePos + 1#3 } ∧
        a.extractLsb' (8 * (s.bytePos.toNat % 4)) 8 = d ∧
        ∀ j < 4, j ≠ s.bytePos.toNat % 4 → a.extractLsb' (8 * j) 8 = s.abuf.extractLsb' (8 * j) 8) ∧
    (s.bytePos = 3#3 → ∀ t,
      exec (decode (.evt32 (d ++ s.abuf.extractLsb' 0 24))) { s with abuf := 0#32 } = .next t →
      exec (.sByte d) s = .next { t with bytePos := 4#3 }) ∧
    (s.bytePos = 7#3 → ∀ t,
      exec (decode (.clk32 (d ++ s.abuf.extractLsb' 0 24))) { s with abuf := 0#32 } = .next t →
      exec (.sByte d) s = .next { t with bytePos := 0#3 })

/-- In a run, S_BYTE answers a next state in every position, for every byte (R101: "A byte is never rejected once
accepted"). -/
def Obligations.SByteCompletes : Prop :=
  ∀ (s : State) (d : Byte), s.runState = .accum → s.cellsDefined →
    ∃ t, exec (.sByte d) s = .next t ∧ t.bytePos = s.bytePos + 1#3 ∧ t.runState = .accum ∧ t.cellsDefined ∧
      t.config = s.config ∧ t.trunc = s.trunc ∧ t.accerr = s.accerr ∧ t.q = s.q ∧
      t.streamOffers = s.streamOffers ∧ t.hostIssues = s.hostIssues ∧ t.schedule = s.schedule

/-- R51, R103, R104: four bytes, least significant first, form the word that is performed in event position and in
clock position. -/
def Obligations.FourBytesFormOneWord : Prop :=
  ∀ (s t : State) (b0 b1 b2 b3 : Byte), s.runState = .accum →
    (s.bytePos = 0#3 → exec (decode (.evt32 (b3 ++ b2 ++ b1 ++ b0))) { s with abuf := 0#32 } = .next t →
      runAll [.sByte b0, .sByte b1, .sByte b2, .sByte b3] s = .next { t with bytePos := 4#3 }) ∧
    (s.bytePos = 4#3 → exec (decode (.clk32 (b3 ++ b2 ++ b1 ++ b0))) { s with abuf := 0#32 } = .next t →
      runAll [.sByte b0, .sByte b1, .sByte b2, .sByte b3] s = .next { t with bytePos := 0#3 })

/-- R106 with R221: S_EOS in ACCUM ends the run in DONE on a pair boundary, and otherwise takes TRUNC, which sets its
flag, enters ERROR and keeps every other element. -/
def Obligations.EndOfStream : Prop :=
  ∀ (s : State) (d : Byte), s.runState = .accum →
    (s.bytePos = 0#3 → exec (.sEos d) s = .next { s with runState := .done }) ∧
    (s.bytePos ≠ 0#3 → exec (.sEos d) s = .next { s with trunc := true, runState := .error })

/-- R107: an empty run ends in DONE with every cell 0 and no pair counted. -/
def Obligations.EmptyRunEndsDoneAndZero : Prop :=
  ∀ (s : State) (dc : BitVec 31) (d : Byte),
    ∃ t, runAll [.hStart dc, .sEos d] s = .next t ∧ t.runState = .done ∧ t.cellsZero ∧ t.pairCount = 0#32 ∧
      t.clockLast = 0#32

/-! ## The accumulator and the clock decoder -/

/-- R153 to R156: EVENT_WORD adds one to exactly the two selected cells, held at `2^CW - 1` with SAT set; a set
reserved bit adds one to RSVD_COUNT, held at 0xFFFFFFFF with CNTSAT set; nothing else changes. As an operation, and on
every word that EXTRACT takes apart into its operands. -/
def Obligations.EventWordEffect : Prop :=
  ∀ (r : BitVec 1) (c : Channel) (t : TimeBin) (e : Energy) (s : State) (u v : Word),
    s.amp.read (ampAddr c e) = some u → s.tdc.read (tdcAddr c t) = some v →
    ∃ s' : State, exec (.eventWord r c t e) s = .next s' ∧
      (∀ ra, s'.amp.read ra =
        if ra = ampAddr c e then some (if u.toNat < 2 ^ s.config.cw.bits - 1 then u + 1#32 else u)
        else s.amp.read ra) ∧
      (∀ ra, s'.tdc.read ra =
        if ra = tdcAddr c t then some (if v.toNat < 2 ^ s.config.cw.bits - 1 then v + 1#32 else v)
        else s.tdc.read ra) ∧
      s' = { s with
        amp := s'.amp
        tdc := s'.tdc
        sat := s.sat || decide (2 ^ s.config.cw.bits - 1 ≤ u.toNat) || decide (2 ^ s.config.cw.bits - 1 ≤ v.toNat)
        rsvdCount :=
          if r = 1#1 then (if s.rsvdCount = 0xFFFFFFFF#32 then 0xFFFFFFFF#32 else s.rsvdCount + 1#32)
          else s.rsvdCount
        cntsat := s.cntsat || (decide (r = 1#1) && decide (s.rsvdCount = 0xFFFFFFFF#32)) } ∧
      ∀ w : Word, extract w = ⟨r, c, t, e⟩ → exec (decode (.evt32 w)) s = .next s'

/-- An event word whose cell is UNSPEC stops with the fault: the model's reading of 93_implementation_defined.md item 1
(assumption 4). No reachable transaction does so. -/
def Obligations.EventWordStopsOnUnspec : Prop :=
  ∀ (r : BitVec 1) (c : Channel) (t : TimeBin) (e : Energy) (s : State),
    s.amp.read (ampAddr c e) = none ∨ s.tdc.read (tdcAddr c t) = none →
    exec (.eventWord r c t e) s = .fault .unspecCell

/-- R123: the reserved bit changes no field and no increment; its only effect is to count in RSVD_COUNT. -/
def Obligations.ReservedBitOnlyCounts : Prop :=
  ∀ w : Word,
    extract (w ||| 0x80000000#32) = { extract (w &&& 0x7FFFFFFF#32) with r := 1#1 } ∧
    (extract (w &&& 0x7FFFFFFF#32)).r = 0#1 ∧
    ∀ s t : State, exec (decode (.evt32 (w &&& 0x7FFFFFFF#32))) s = .next t →
    exec (decode (.evt32 (w ||| 0x80000000#32))) s = .next { t with
      rsvdCount := if s.rsvdCount = 0xFFFFFFFF#32 then 0xFFFFFFFF#32 else s.rsvdCount + 1#32
      cntsat := s.cntsat || decide (s.rsvdCount = 0xFFFFFFFF#32) }

/-- R141, R157: CLOCK_WORD captures the word and counts the pair, held at 0xFFFFFFFF with CNTSAT set. -/
def Obligations.ClockWordEffect : Prop :=
  ∀ (w : Word) (s : State),
    exec (.clockWord w) s = .next { s with
      clockLast := w
      pairCount := if s.pairCount = 0xFFFFFFFF#32 then 0xFFFFFFFF#32 else s.pairCount + 1#32
      cntsat := s.cntsat || decide (s.pairCount = 0xFFFFFFFF#32) }

/-- R143: no byte of a clock word affects AMP, TDC, RSVD_COUNT, or TRUNC, SAT and ACCERR; and what the word is reaches
CLOCK_LAST (through ABUF) only. (CNTSAT may be set by the pair's completion, R157; assumption 13.) -/
def Obligations.ClockBytesReachOnlyClockLast : Prop :=
  ∀ (s t : State) (d d' : Byte), s.runState = .accum → 4 ≤ s.bytePos.toNat → exec (.sByte d) s = .next t →
    t.amp = s.amp ∧ t.tdc = s.tdc ∧ t.rsvdCount = s.rsvdCount ∧ t.trunc = s.trunc ∧ t.sat = s.sat ∧
    t.accerr = s.accerr ∧
    ∃ a k : Word, exec (.sByte d') s = .next { t with abuf := a, clockLast := k }

/-- R161: after any list of event words, each cell is its start value plus the number of words that select it, held at
`2^CW - 1`; words that select other cells leave it unchanged. -/
def Obligations.RepeatedEventsAccumulateExactly : Prop :=
  ∀ (ws : List Word) (s : State), s.cellsDefined →
    ∃ t, runAll (ws.map fun w => decode (.evt32 w)) s = .next t ∧
      (∀ (c : Channel) (e : Energy) (v : Word), s.amp.read (ampAddr c e) = some v → v.toNat ≤ 2 ^ s.config.cw.bits - 1 →
        ∃ n, t.amp.read (ampAddr c e) = some n ∧
          n.toNat = min (2 ^ s.config.cw.bits - 1) (v.toNat + ws.countP (selectsAmp c e))) ∧
      ∀ (c : Channel) (b : TimeBin) (v : Word), s.tdc.read (tdcAddr c b) = some v → v.toNat ≤ 2 ^ s.config.cw.bits - 1 →
        ∃ n, t.tdc.read (tdcAddr c b) = some n ∧
          n.toNat = min (2 ^ s.config.cw.bits - 1) (v.toNat + ws.countP (selectsTdc c b))

/-- Within a run no cell value ever decreases (R158): a step that is neither a START nor a RESET lowers no cell. -/
def Obligations.CountsNeverDecrease : Prop :=
  ∀ s t : State, step s = .next t → ¬ s.takesStart → ¬ s.takesReset →
    (∀ ra v, s.amp.read ra = some v → ∃ v', t.amp.read ra = some v' ∧ v.toNat ≤ v'.toNat) ∧
    ∀ ra v, s.tdc.read ra = some v → ∃ v', t.tdc.read ra = some v' ∧ v.toNat ≤ v'.toNat

/-- The tables change only in an S_BYTE accepted at BYTEPOS 3, in a START and in a RESET (R32, R59). -/
def Obligations.TablesChangeOnlyInTheAccumulator : Prop :=
  ∀ s t : State, step s = .next t → t.amp ≠ s.amp ∨ t.tdc ≠ s.tdc →
    s.takesStart ∨ s.takesReset ∨ (s.bytePos = 3#3 ∧ ∃ b, s.acceptsTransfer (opByte b))

/-- The block's whole function, from a run's START state to DONE: for every list of pairs offered as bytes and ended by
an end of stream, each cell holds the number of event words that select it (held at `2^CW - 1`), the counters hold
theirs, and CLOCK_LAST the last clock word (R51, R52, R101, R106, R141, R153 to R157, R161). -/
def Obligations.StreamOfPairsIsCounted : Prop :=
  ∀ (ps : List (Word × Word)) (s : State) (rest : List Stx9) (turns : List Turn),
    s.runState = .accum → s.bytePos = 0#3 → s.cellsZero → s.pairCount = 0#32 → s.rsvdCount = 0#32 →
    s.streamOffers = ps.flatMap (fun p => opWord p.1 ++ opWord p.2) ++ opEos :: rest →
    s.schedule = List.replicate (8 * ps.length + 1) .producer ++ turns →
    ∃ t, Host.Core.run Sys2Proof.core (8 * ps.length + 1) s = .next t ∧
      t.runState = .done ∧ t.bytePos = 0#3 ∧ t.trunc = s.trunc ∧ t.accerr = s.accerr ∧ t.q = s.q ∧
      t.config = s.config ∧ t.streamOffers = rest ∧ t.hostIssues = s.hostIssues ∧ t.schedule = turns ∧
      (∀ c e, ∃ n, t.amp.read (ampAddr c e) = some n ∧
        n.toNat = min (2 ^ s.config.cw.bits - 1) (ps.countP fun p => selectsAmp c e p.1)) ∧
      (∀ c b, ∃ n, t.tdc.read (tdcAddr c b) = some n ∧
        n.toNat = min (2 ^ s.config.cw.bits - 1) (ps.countP fun p => selectsTdc c b p.1)) ∧
      t.pairCount.toNat = min (2 ^ 32 - 1) ps.length ∧
      t.rsvdCount.toNat = min (2 ^ 32 - 1) (ps.countP fun p => p.1.getLsbD 31) ∧
      t.clockLast = (ps.getLast?.map Prod.snd).getD s.clockLast

/-! ## The host port -/

/-- R182: START, in every state: the whole of its effect, and nothing else changes; as an operation, and on the bits of
every write of CTRL with bit 0 set. -/
def Obligations.StartBeginsANewRun : Prop :=
  ∀ (s : State) (dc : BitVec 31),
    ∃ t, exec (.hStart dc) s = .next t ∧ (∀ ra, t.amp.read ra = some 0#32) ∧ (∀ ra, t.tdc.read ra = some 0#32) ∧
      t = { s with
        amp := t.amp, tdc := t.tdc, bytePos := 0#3, abuf := 0#32, clockLast := 0#32, pairCount := 0#32
        rsvdCount := 0#32, trunc := false, sat := false, cntsat := false, accerr := false, runState := .accum } ∧
      ∀ h : Htx56, htxWe h = 1#1 → htxAddr h = 0x000000#23 → (htxData h).getLsbD 0 = true →
        exec (decode (.htx56 h)) s = .next t

/-- R183, R184: a CTRL write with bit 0 clear changes nothing, and a write to any other address sets ACCERR and nothing
else, in every state; as operations, and on the transaction's bits. -/
def Obligations.OtherHostWrites : Prop :=
  (∀ (s : State) (dc : BitVec 31), exec (.hWrCtrlNop dc) s = .next s) ∧
  (∀ (s : State) (a : HostAddr) (d : Word), exec (.hWrIllegal a d) s = .next { s with accerr := true }) ∧
  ∀ (s : State) (h : Htx56), htxWe h = 1#1 →
    (htxAddr h = 0x000000#23 → (htxData h).getLsbD 0 = false → exec (decode (.htx56 h)) s = .next s) ∧
    (htxAddr h ≠ 0x000000#23 → exec (decode (.htx56 h)) s = .next { s with accerr := true })

/-- R185, R187, R188, R189: the reads of CTRL, CLOCK_LAST, PAIR_COUNT and RSVD_COUNT, in every state; only the returned
data `q` is written. As operations, and on the transaction's bits. -/
def Obligations.RegisterReads : Prop :=
  (∀ (s : State) (dc : Word),
    exec (.hRdCtrl dc) s = .next { s with q := 0#32 } ∧
    exec (.hRdClockLast dc) s = .next { s with q := s.clockLast } ∧
    exec (.hRdPairCount dc) s = .next { s with q := s.pairCount } ∧
    exec (.hRdRsvdCount dc) s = .next { s with q := s.rsvdCount }) ∧
  ∀ (s : State) (h : Htx56), htxWe h = 0#1 →
    (htxAddr h = 0x000000#23 → exec (decode (.htx56 h)) s = .next { s with q := 0#32 }) ∧
    (htxAddr h = 0x000002#23 → exec (decode (.htx56 h)) s = .next { s with q := s.clockLast }) ∧
    (htxAddr h = 0x000003#23 → exec (decode (.htx56 h)) s = .next { s with q := s.pairCount }) ∧
    (htxAddr h = 0x000004#23 → exec (decode (.htx56 h)) s = .next { s with q := s.rsvdCount })

/-- R29, R186: the read of STATUS, field by field; it clears no flag. As an operation, and on the transaction's bits. -/
def Obligations.StatusReadFields : Prop :=
  ∀ (s : State) (dc : Word), ∃ v : Word, exec (.hRdStatus dc) s = .next { s with q := v } ∧
    v.extractLsb' 0 2 = s.runState.code ∧ v.getLsbD 2 = s.trunc ∧ v.getLsbD 3 = s.sat ∧ v.getLsbD 4 = s.cntsat ∧
    v.getLsbD 5 = s.accerr ∧ v.extractLsb' 6 2 = 0#2 ∧ v.extractLsb' 8 3 = s.bytePos ∧ v.extractLsb' 11 21 = 0#21 ∧
    ∀ h : Htx56, htxWe h = 0#1 → htxAddr h = 0x000001#23 → exec (decode (.htx56 h)) s = .next { s with q := v }

/-- R31, R190: the read of CONFIG, field by field; 0x000CA920 at the default width. As an
operation, and on the transaction's bits. -/
def Obligations.ConfigReadFields : Prop :=
  ∀ (s : State) (dc : Word), ∃ v : Word, exec (.hRdConfig dc) s = .next { s with q := v } ∧
    (v.extractLsb' 0 6).toNat = s.config.cw.bits ∧ v.extractLsb' 6 2 = 0#2 ∧ v.extractLsb' 8 4 = 9#4 ∧
    v.extractLsb' 12 4 = 10#4 ∧ v.extractLsb' 16 4 = 12#4 ∧ v.extractLsb' 20 12 = 0#12 ∧
    (s.config.cw.bits = 32 → v = 0x000CA920#32) ∧
    ∀ h : Htx56, htxWe h = 0#1 → htxAddr h = 0x000005#23 → exec (decode (.htx56 h)) s = .next { s with q := v }

/-- R191, R192: a table read returns the addressed cell in DONE, and in every other state returns 0 and sets ACCERR; and
the bits of a read in each window give the row and the column. -/
def Obligations.TableReads : Prop :=
  (∀ (s : State) (c : Channel) (e : Energy) (b : TimeBin) (dc : Word),
    (s.runState = .done → ∀ v, s.amp.read (ampAddr c e) = some v → exec (.hRdAmp c e dc) s = .next { s with q := v }) ∧
    (s.runState ≠ .done → exec (.hRdAmp c e dc) s = .next { s with q := 0#32, accerr := true }) ∧
    (s.runState = .done → ∀ v, s.tdc.read (tdcAddr c b) = some v → exec (.hRdTdc c b dc) s = .next { s with q := v }) ∧
    (s.runState ≠ .done → exec (.hRdTdc c b dc) s = .next { s with q := 0#32, accerr := true })) ∧
  ∀ h : Htx56, htxWe h = 0#1 →
    ((htxAddr h).extractLsb' 21 2 = 0b01#2 →
      decode (.htx56 h) = .hRdAmp ((htxAddr h).extractLsb' 12 9) ((htxAddr h).extractLsb' 0 12) (htxData h)) ∧
    ((htxAddr h).extractLsb' 19 4 = 0b1000#4 →
      decode (.htx56 h) = .hRdTdc ((htxAddr h).extractLsb' 10 9) ((htxAddr h).extractLsb' 0 10) (htxData h))

/-- A table read of an UNSPEC cell in DONE stops with the fault: the model's reading of 93_implementation_defined.md
item 1 (assumption 4). No reachable transaction does so. -/
def Obligations.TableReadStopsOnUnspec : Prop :=
  ∀ (s : State) (c : Channel) (e : Energy) (b : TimeBin) (dc : Word), s.runState = .done →
    (s.amp.read (ampAddr c e) = none → exec (.hRdAmp c e dc) s = .fault .unspecCell) ∧
    (s.tdc.read (tdcAddr c b) = none → exec (.hRdTdc c b dc) s = .fault .unspecCell)

/-- R193: a read of a reserved address returns 0 and sets ACCERR, in every state; as an operation, and on the
transaction's bits for every reserved address. -/
def Obligations.ReservedRead : Prop :=
  (∀ (s : State) (a : HostAddr) (dc : Word),
    exec (.hRdReserved a dc) s = .next { s with q := 0#32, accerr := true }) ∧
  ∀ (s : State) (a : HostAddr) (dc : Word), (6 ≤ a.toNat ∧ a.toNat ≤ 0x1FFFFF) ∨ 0x480000 ≤ a.toNat →
    exec (decode (.htx56 (packHtx56 0#1 a dc))) s = .next { s with q := 0#32, accerr := true }

/-- R224: exactly the listed accesses are illegal. An illegal access sets ACCERR, returns 0 if it is a read, and has no
other effect; a legal one never sets ACCERR. Stated on the transaction's bits. -/
def Obligations.IllegalAccessesAreThoseListed : Prop :=
  ∀ (h : Htx56) (s : State),
    (illegalAccess h s = true →
      exec (decode (.htx56 h)) s = .next { s with accerr := true, q := if htxWe h = 1#1 then s.q else 0#32 }) ∧
    ∀ t, illegalAccess h s = false → exec (decode (.htx56 h)) s = .next t → t.accerr = true → s.accerr = true

/-- A legal host read has no side effect on the block, and repeated at once returns the same data (the first clause of
R58). -/
def Obligations.LegalReadIsIdempotent : Prop :=
  ∀ (h : Htx56) (s t : State), htxWe h = 0#1 → illegalAccess h s = false → exec (decode (.htx56 h)) s = .next t →
    t = { s with q := t.q } ∧ exec (decode (.htx56 h)) t = .next t

/-- Host accesses other than START do not disturb a run: they change only ACCERR and `q` (R58's side effects, R183 for a
CTRL write without START, R59 for the tables), and the stream's operations read neither (R28: "No flag is read by any
operation of the block"; `q` is the model's field, assumption 8). -/
def Obligations.HostAccessesDoNotDisturbTheRun : Prop :=
  (∀ (i : Instr) (s t : State), isHostOp i = true → (∀ dc, i ≠ .hStart dc) → exec i s = .next t →
    t = { s with q := t.q, accerr := t.accerr }) ∧
  ∀ (i : Instr) (s t : State) (q : Word) (flag : Bool), isHostOp i = false → exec i s = .next t →
    exec i { s with q := q, accerr := flag } = .next { t with q := q, accerr := flag }

/-- In DONE, with no START among the accesses issued and no RESET scheduled, any number of steps leave DONE, both
tables, both counters and CLOCK_LAST as they are (R65 item 3, R195). -/
def Obligations.TablesStayThroughReadout : Prop :=
  ∀ (k : Nat) (s t : State), s.runState = .done → (∀ x ∈ s.schedule, x ≠ .resetSignal) →
    (∀ h ∈ s.hostIssues, ¬ (htxWe h = 1#1 ∧ htxAddr h = 0#23 ∧ h.getLsbD 0 = true)) →
    Host.Core.run Sys2Proof.core k s = .next t →
    t.runState = .done ∧ t.amp = s.amp ∧ t.tdc = s.tdc ∧ t.pairCount = s.pairCount ∧ t.rsvdCount = s.rsvdCount ∧
      t.clockLast = s.clockLast

/-- After a START, any operations but an end of stream leave the block in ACCUM, and a table read that follows them is
illegal: it returns 0 and sets ACCERR, and changes nothing else. (R68, for a run not yet ended: after an end of stream on
a pair boundary a table read is legal again, as in program P4 of 95_test_vectors.md.) -/
def Obligations.StartEndsTheReadout : Prop :=
  ∀ (s : State) (dc : BitVec 31) (ops : List Instr) (c : Channel) (e : Energy) (b : TimeBin) (d : Word),
    (∀ i ∈ ops, ∀ x, i ≠ .sEos x) →
    ∃ u, runAll (.hStart dc :: ops) s = .next u ∧ u.runState = .accum ∧
      exec (.hRdAmp c e d) u = .next { u with q := 0#32, accerr := true } ∧
      exec (.hRdTdc c b d) u = .next { u with q := 0#32, accerr := true }

/-- R194: the order in which a host reads the tables out: row `c` after row `c`, in each row the columns in order, 512
rows of 4096 and of 1024, each address once. -/
def Obligations.ReadoutOrder : Prop :=
  (∀ c e, readoutAmp[c.toNat * 4096 + e.toNat]? = some (opRdAmp c e)) ∧ readoutAmp.length = 512 * 4096 ∧
  (∀ c t, readoutTdc[c.toNat * 1024 + t.toNat]? = some (opRdTdc c t)) ∧ readoutTdc.length = 512 * 1024 ∧
  readoutAmp.Nodup ∧ readoutTdc.Nodup

/-- `q` is written by host reads only: the model's record of what the last read returned (assumption 8). -/
def Obligations.OnlyHostReadsWriteQ : Prop :=
  ∀ s t : State, step s = .next t → t.q ≠ s.q → ∃ h, s.takesAccess h ∧ htxWe h = 0#1

/-! ## The whole machine -/

/-- Each flag is sticky: only a START or a RESET clears it (the clearing clause of R28). -/
def Obligations.FlagsAreSticky : Prop :=
  ∀ s t : State, step s = .next t → ¬ s.takesStart → ¬ s.takesReset →
    (s.trunc = true → t.trunc = true) ∧ (s.sat = true → t.sat = true) ∧ (s.cntsat = true → t.cntsat = true) ∧
    (s.accerr = true → t.accerr = true)

/-- STATE moves only by RESET, by START, and by an S_EOS accepted in ACCUM; so ERROR is left only by START and RESET
(R106, R182, R230, R250). -/
def Obligations.RunStateMoves : Prop :=
  ∀ s t : State, step s = .next t → t.runState ≠ s.runState →
    (s.takesReset ∧ t.runState = .idle) ∨ (s.takesStart ∧ t.runState = .accum) ∨
    ∃ x : Stx9, s.acceptsTransfer x ∧ x.getLsbD 8 = true ∧
      ((s.bytePos = 0#3 ∧ t.runState = .done) ∨ (s.bytePos ≠ 0#3 ∧ t.runState = .error))

/-- Each error event shows in the read of STATUS at the bit that is its code, and changes no other bit, but that TRUNC
also moves STATE to ERROR (R220). -/
def Obligations.RaisedEventShowsAtItsCode : Prop :=
  ∀ (ev : ErrorEvent) (s : State) (dc : Word), ∃ v v' : Word,
    exec (.hRdStatus dc) s = .next { s with q := v } ∧
    exec (.hRdStatus dc) (s.raise ev) = .next { s.raise ev with q := v' } ∧
    v'.getLsbD ev.code = true ∧ (∀ k, 2 ≤ k → k ≠ ev.code → v'.getLsbD k = v.getLsbD k) ∧
    v'.extractLsb' 0 2 = if ev = .trunc then RunState.error.code else v.extractLsb' 0 2

/-- The invariants of R37 hold right after reset, for every configuration (the base case). -/
def Obligations.ResetMeetsTheInvariants : Prop :=
  State.reset.Inv ∧ ∀ cfg : Config, (State.resetWith cfg).Inv

/-- R37: every step keeps its seven invariants, from every state that meets them, whatever the agents offer next. -/
def Obligations.StepKeepsTheInvariants : Prop :=
  ∀ s t : State, s.Inv → step s = .next t → t.Inv

/-- The model's tables stay in canonical form, with cells that fit CW bits, in every step (assumptions 2 and 3). -/
def Obligations.StepKeepsTablesCanonical : Prop :=
  ∀ s t : State, s.TablesCanonical → step s = .next t → t.TablesCanonical

/-- From every state that meets R37's invariants a step answers a next state: no transaction reads an UNSPEC cell, and
none stops (a clause of R33). -/
def Obligations.NoStepStops : Prop :=
  ∀ s : State, s.Inv → ∃ t, step s = .next t
end

