-- ==== Sys2Proof/Laws/State.lean ====
section
/-! SUPPORT. One lemma per field for each named update of State, so that no proof unfolds a record update. -/

namespace Sys2Proof.Machine

/-! ## reply -/

@[simp] theorem State.reply_config (v : Word) (s : State) : (s.reply v).config = s.config := rfl
@[simp] theorem State.reply_runState (v : Word) (s : State) : (s.reply v).runState = s.runState := rfl
@[simp] theorem State.reply_bytePos (v : Word) (s : State) : (s.reply v).bytePos = s.bytePos := rfl
@[simp] theorem State.reply_abuf (v : Word) (s : State) : (s.reply v).abuf = s.abuf := rfl
@[simp] theorem State.reply_clockLast (v : Word) (s : State) : (s.reply v).clockLast = s.clockLast := rfl
@[simp] theorem State.reply_pairCount (v : Word) (s : State) : (s.reply v).pairCount = s.pairCount := rfl
@[simp] theorem State.reply_rsvdCount (v : Word) (s : State) : (s.reply v).rsvdCount = s.rsvdCount := rfl
@[simp] theorem State.reply_trunc (v : Word) (s : State) : (s.reply v).trunc = s.trunc := rfl
@[simp] theorem State.reply_sat (v : Word) (s : State) : (s.reply v).sat = s.sat := rfl
@[simp] theorem State.reply_cntsat (v : Word) (s : State) : (s.reply v).cntsat = s.cntsat := rfl
@[simp] theorem State.reply_accerr (v : Word) (s : State) : (s.reply v).accerr = s.accerr := rfl
@[simp] theorem State.reply_amp (v : Word) (s : State) : (s.reply v).amp = s.amp := rfl
@[simp] theorem State.reply_tdc (v : Word) (s : State) : (s.reply v).tdc = s.tdc := rfl
@[simp] theorem State.reply_q (v : Word) (s : State) : (s.reply v).q = v := rfl
@[simp] theorem State.reply_streamOffers (v : Word) (s : State) : (s.reply v).streamOffers = s.streamOffers := rfl
@[simp] theorem State.reply_hostIssues (v : Word) (s : State) : (s.reply v).hostIssues = s.hostIssues := rfl
@[simp] theorem State.reply_schedule (v : Word) (s : State) : (s.reply v).schedule = s.schedule := rfl

/-! ## advance -/

@[simp] theorem State.advance_config (s : State) : (s.advance).config = s.config := rfl
@[simp] theorem State.advance_runState (s : State) : (s.advance).runState = s.runState := rfl
@[simp] theorem State.advance_bytePos (s : State) : (s.advance).bytePos = s.bytePos + 1#3 := rfl
@[simp] theorem State.advance_abuf (s : State) : (s.advance).abuf = s.abuf := rfl
@[simp] theorem State.advance_clockLast (s : State) : (s.advance).clockLast = s.clockLast := rfl
@[simp] theorem State.advance_pairCount (s : State) : (s.advance).pairCount = s.pairCount := rfl
@[simp] theorem State.advance_rsvdCount (s : State) : (s.advance).rsvdCount = s.rsvdCount := rfl
@[simp] theorem State.advance_trunc (s : State) : (s.advance).trunc = s.trunc := rfl
@[simp] theorem State.advance_sat (s : State) : (s.advance).sat = s.sat := rfl
@[simp] theorem State.advance_cntsat (s : State) : (s.advance).cntsat = s.cntsat := rfl
@[simp] theorem State.advance_accerr (s : State) : (s.advance).accerr = s.accerr := rfl
@[simp] theorem State.advance_amp (s : State) : (s.advance).amp = s.amp := rfl
@[simp] theorem State.advance_tdc (s : State) : (s.advance).tdc = s.tdc := rfl
@[simp] theorem State.advance_q (s : State) : (s.advance).q = s.q := rfl
@[simp] theorem State.advance_streamOffers (s : State) : (s.advance).streamOffers = s.streamOffers := rfl
@[simp] theorem State.advance_hostIssues (s : State) : (s.advance).hostIssues = s.hostIssues := rfl
@[simp] theorem State.advance_schedule (s : State) : (s.advance).schedule = s.schedule := rfl

/-! ## start -/

@[simp] theorem State.start_config (s : State) : (s.start).config = s.config := rfl
@[simp] theorem State.start_runState (s : State) : (s.start).runState = .accum := rfl
@[simp] theorem State.start_bytePos (s : State) : (s.start).bytePos = 0#3 := rfl
@[simp] theorem State.start_abuf (s : State) : (s.start).abuf = 0#32 := rfl
@[simp] theorem State.start_clockLast (s : State) : (s.start).clockLast = 0#32 := rfl
@[simp] theorem State.start_pairCount (s : State) : (s.start).pairCount = 0#32 := rfl
@[simp] theorem State.start_rsvdCount (s : State) : (s.start).rsvdCount = 0#32 := rfl
@[simp] theorem State.start_trunc (s : State) : (s.start).trunc = false := rfl
@[simp] theorem State.start_sat (s : State) : (s.start).sat = false := rfl
@[simp] theorem State.start_cntsat (s : State) : (s.start).cntsat = false := rfl
@[simp] theorem State.start_accerr (s : State) : (s.start).accerr = false := rfl
@[simp] theorem State.start_amp (s : State) : (s.start).amp = Memory.zeroed := rfl
@[simp] theorem State.start_tdc (s : State) : (s.start).tdc = Memory.zeroed := rfl
@[simp] theorem State.start_q (s : State) : (s.start).q = s.q := rfl
@[simp] theorem State.start_streamOffers (s : State) : (s.start).streamOffers = s.streamOffers := rfl
@[simp] theorem State.start_hostIssues (s : State) : (s.start).hostIssues = s.hostIssues := rfl
@[simp] theorem State.start_schedule (s : State) : (s.start).schedule = s.schedule := rfl

/-! ## takeReset -/

@[simp] theorem State.takeReset_config (s : State) : (s.takeReset).config = s.config := rfl
@[simp] theorem State.takeReset_runState (s : State) : (s.takeReset).runState = .idle := rfl
@[simp] theorem State.takeReset_bytePos (s : State) : (s.takeReset).bytePos = 0#3 := rfl
@[simp] theorem State.takeReset_abuf (s : State) : (s.takeReset).abuf = 0#32 := rfl
@[simp] theorem State.takeReset_clockLast (s : State) : (s.takeReset).clockLast = 0#32 := rfl
@[simp] theorem State.takeReset_pairCount (s : State) : (s.takeReset).pairCount = 0#32 := rfl
@[simp] theorem State.takeReset_rsvdCount (s : State) : (s.takeReset).rsvdCount = 0#32 := rfl
@[simp] theorem State.takeReset_trunc (s : State) : (s.takeReset).trunc = false := rfl
@[simp] theorem State.takeReset_sat (s : State) : (s.takeReset).sat = false := rfl
@[simp] theorem State.takeReset_cntsat (s : State) : (s.takeReset).cntsat = false := rfl
@[simp] theorem State.takeReset_accerr (s : State) : (s.takeReset).accerr = false := rfl
@[simp] theorem State.takeReset_amp (s : State) : (s.takeReset).amp = Memory.unspecified := rfl
@[simp] theorem State.takeReset_tdc (s : State) : (s.takeReset).tdc = Memory.unspecified := rfl
@[simp] theorem State.takeReset_q (s : State) : (s.takeReset).q = s.q := rfl
@[simp] theorem State.takeReset_streamOffers (s : State) : (s.takeReset).streamOffers = s.streamOffers := rfl
@[simp] theorem State.takeReset_hostIssues (s : State) : (s.takeReset).hostIssues = s.hostIssues := rfl
@[simp] theorem State.takeReset_schedule (s : State) : (s.takeReset).schedule = s.schedule := rfl

/-! ## raise_trunc -/

@[simp] theorem State.raise_trunc_config (s : State) : (s.raise .trunc).config = s.config := rfl
@[simp] theorem State.raise_trunc_runState (s : State) : (s.raise .trunc).runState = .error := rfl
@[simp] theorem State.raise_trunc_bytePos (s : State) : (s.raise .trunc).bytePos = s.bytePos := rfl
@[simp] theorem State.raise_trunc_abuf (s : State) : (s.raise .trunc).abuf = s.abuf := rfl
@[simp] theorem State.raise_trunc_clockLast (s : State) : (s.raise .trunc).clockLast = s.clockLast := rfl
@[simp] theorem State.raise_trunc_pairCount (s : State) : (s.raise .trunc).pairCount = s.pairCount := rfl
@[simp] theorem State.raise_trunc_rsvdCount (s : State) : (s.raise .trunc).rsvdCount = s.rsvdCount := rfl
@[simp] theorem State.raise_trunc_trunc (s : State) : (s.raise .trunc).trunc = true := rfl
@[simp] theorem State.raise_trunc_sat (s : State) : (s.raise .trunc).sat = s.sat := rfl
@[simp] theorem State.raise_trunc_cntsat (s : State) : (s.raise .trunc).cntsat = s.cntsat := rfl
@[simp] theorem State.raise_trunc_accerr (s : State) : (s.raise .trunc).accerr = s.accerr := rfl
@[simp] theorem State.raise_trunc_amp (s : State) : (s.raise .trunc).amp = s.amp := rfl
@[simp] theorem State.raise_trunc_tdc (s : State) : (s.raise .trunc).tdc = s.tdc := rfl
@[simp] theorem State.raise_trunc_q (s : State) : (s.raise .trunc).q = s.q := rfl
@[simp] theorem State.raise_trunc_streamOffers (s : State) : (s.raise .trunc).streamOffers = s.streamOffers := rfl
@[simp] theorem State.raise_trunc_hostIssues (s : State) : (s.raise .trunc).hostIssues = s.hostIssues := rfl
@[simp] theorem State.raise_trunc_schedule (s : State) : (s.raise .trunc).schedule = s.schedule := rfl

/-! ## raise_sat -/

@[simp] theorem State.raise_sat_config (s : State) : (s.raise .sat).config = s.config := rfl
@[simp] theorem State.raise_sat_runState (s : State) : (s.raise .sat).runState = s.runState := rfl
@[simp] theorem State.raise_sat_bytePos (s : State) : (s.raise .sat).bytePos = s.bytePos := rfl
@[simp] theorem State.raise_sat_abuf (s : State) : (s.raise .sat).abuf = s.abuf := rfl
@[simp] theorem State.raise_sat_clockLast (s : State) : (s.raise .sat).clockLast = s.clockLast := rfl
@[simp] theorem State.raise_sat_pairCount (s : State) : (s.raise .sat).pairCount = s.pairCount := rfl
@[simp] theorem State.raise_sat_rsvdCount (s : State) : (s.raise .sat).rsvdCount = s.rsvdCount := rfl
@[simp] theorem State.raise_sat_trunc (s : State) : (s.raise .sat).trunc = s.trunc := rfl
@[simp] theorem State.raise_sat_sat (s : State) : (s.raise .sat).sat = true := rfl
@[simp] theorem State.raise_sat_cntsat (s : State) : (s.raise .sat).cntsat = s.cntsat := rfl
@[simp] theorem State.raise_sat_accerr (s : State) : (s.raise .sat).accerr = s.accerr := rfl
@[simp] theorem State.raise_sat_amp (s : State) : (s.raise .sat).amp = s.amp := rfl
@[simp] theorem State.raise_sat_tdc (s : State) : (s.raise .sat).tdc = s.tdc := rfl
@[simp] theorem State.raise_sat_q (s : State) : (s.raise .sat).q = s.q := rfl
@[simp] theorem State.raise_sat_streamOffers (s : State) : (s.raise .sat).streamOffers = s.streamOffers := rfl
@[simp] theorem State.raise_sat_hostIssues (s : State) : (s.raise .sat).hostIssues = s.hostIssues := rfl
@[simp] theorem State.raise_sat_schedule (s : State) : (s.raise .sat).schedule = s.schedule := rfl

/-! ## raise_cntsat -/

@[simp] theorem State.raise_cntsat_config (s : State) : (s.raise .cntsat).config = s.config := rfl
@[simp] theorem State.raise_cntsat_runState (s : State) : (s.raise .cntsat).runState = s.runState := rfl
@[simp] theorem State.raise_cntsat_bytePos (s : State) : (s.raise .cntsat).bytePos = s.bytePos := rfl
@[simp] theorem State.raise_cntsat_abuf (s : State) : (s.raise .cntsat).abuf = s.abuf := rfl
@[simp] theorem State.raise_cntsat_clockLast (s : State) : (s.raise .cntsat).clockLast = s.clockLast := rfl
@[simp] theorem State.raise_cntsat_pairCount (s : State) : (s.raise .cntsat).pairCount = s.pairCount := rfl
@[simp] theorem State.raise_cntsat_rsvdCount (s : State) : (s.raise .cntsat).rsvdCount = s.rsvdCount := rfl
@[simp] theorem State.raise_cntsat_trunc (s : State) : (s.raise .cntsat).trunc = s.trunc := rfl
@[simp] theorem State.raise_cntsat_sat (s : State) : (s.raise .cntsat).sat = s.sat := rfl
@[simp] theorem State.raise_cntsat_cntsat (s : State) : (s.raise .cntsat).cntsat = true := rfl
@[simp] theorem State.raise_cntsat_accerr (s : State) : (s.raise .cntsat).accerr = s.accerr := rfl
@[simp] theorem State.raise_cntsat_amp (s : State) : (s.raise .cntsat).amp = s.amp := rfl
@[simp] theorem State.raise_cntsat_tdc (s : State) : (s.raise .cntsat).tdc = s.tdc := rfl
@[simp] theorem State.raise_cntsat_q (s : State) : (s.raise .cntsat).q = s.q := rfl
@[simp] theorem State.raise_cntsat_streamOffers (s : State) : (s.raise .cntsat).streamOffers = s.streamOffers := rfl
@[simp] theorem State.raise_cntsat_hostIssues (s : State) : (s.raise .cntsat).hostIssues = s.hostIssues := rfl
@[simp] theorem State.raise_cntsat_schedule (s : State) : (s.raise .cntsat).schedule = s.schedule := rfl

/-! ## raise_accerr -/

@[simp] theorem State.raise_accerr_config (s : State) : (s.raise .accerr).config = s.config := rfl
@[simp] theorem State.raise_accerr_runState (s : State) : (s.raise .accerr).runState = s.runState := rfl
@[simp] theorem State.raise_accerr_bytePos (s : State) : (s.raise .accerr).bytePos = s.bytePos := rfl
@[simp] theorem State.raise_accerr_abuf (s : State) : (s.raise .accerr).abuf = s.abuf := rfl
@[simp] theorem State.raise_accerr_clockLast (s : State) : (s.raise .accerr).clockLast = s.clockLast := rfl
@[simp] theorem State.raise_accerr_pairCount (s : State) : (s.raise .accerr).pairCount = s.pairCount := rfl
@[simp] theorem State.raise_accerr_rsvdCount (s : State) : (s.raise .accerr).rsvdCount = s.rsvdCount := rfl
@[simp] theorem State.raise_accerr_trunc (s : State) : (s.raise .accerr).trunc = s.trunc := rfl
@[simp] theorem State.raise_accerr_sat (s : State) : (s.raise .accerr).sat = s.sat := rfl
@[simp] theorem State.raise_accerr_cntsat (s : State) : (s.raise .accerr).cntsat = s.cntsat := rfl
@[simp] theorem State.raise_accerr_accerr (s : State) : (s.raise .accerr).accerr = true := rfl
@[simp] theorem State.raise_accerr_amp (s : State) : (s.raise .accerr).amp = s.amp := rfl
@[simp] theorem State.raise_accerr_tdc (s : State) : (s.raise .accerr).tdc = s.tdc := rfl
@[simp] theorem State.raise_accerr_q (s : State) : (s.raise .accerr).q = s.q := rfl
@[simp] theorem State.raise_accerr_streamOffers (s : State) : (s.raise .accerr).streamOffers = s.streamOffers := rfl
@[simp] theorem State.raise_accerr_hostIssues (s : State) : (s.raise .accerr).hostIssues = s.hostIssues := rfl
@[simp] theorem State.raise_accerr_schedule (s : State) : (s.raise .accerr).schedule = s.schedule := rfl

/-! ## illegalRead -/

@[simp] theorem State.illegalRead_config (s : State) : (s.illegalRead).config = s.config := rfl
@[simp] theorem State.illegalRead_runState (s : State) : (s.illegalRead).runState = s.runState := rfl
@[simp] theorem State.illegalRead_bytePos (s : State) : (s.illegalRead).bytePos = s.bytePos := rfl
@[simp] theorem State.illegalRead_abuf (s : State) : (s.illegalRead).abuf = s.abuf := rfl
@[simp] theorem State.illegalRead_clockLast (s : State) : (s.illegalRead).clockLast = s.clockLast := rfl
@[simp] theorem State.illegalRead_pairCount (s : State) : (s.illegalRead).pairCount = s.pairCount := rfl
@[simp] theorem State.illegalRead_rsvdCount (s : State) : (s.illegalRead).rsvdCount = s.rsvdCount := rfl
@[simp] theorem State.illegalRead_trunc (s : State) : (s.illegalRead).trunc = s.trunc := rfl
@[simp] theorem State.illegalRead_sat (s : State) : (s.illegalRead).sat = s.sat := rfl
@[simp] theorem State.illegalRead_cntsat (s : State) : (s.illegalRead).cntsat = s.cntsat := rfl
@[simp] theorem State.illegalRead_accerr (s : State) : (s.illegalRead).accerr = true := rfl
@[simp] theorem State.illegalRead_amp (s : State) : (s.illegalRead).amp = s.amp := rfl
@[simp] theorem State.illegalRead_tdc (s : State) : (s.illegalRead).tdc = s.tdc := rfl
@[simp] theorem State.illegalRead_q (s : State) : (s.illegalRead).q = 0#32 := rfl
@[simp] theorem State.illegalRead_streamOffers (s : State) : (s.illegalRead).streamOffers = s.streamOffers := rfl
@[simp] theorem State.illegalRead_hostIssues (s : State) : (s.illegalRead).hostIssues = s.hostIssues := rfl
@[simp] theorem State.illegalRead_schedule (s : State) : (s.illegalRead).schedule = s.schedule := rfl

/-! ## raiseIf

A conditional flag is an `or` into the flag, and nothing else. -/

theorem State.raiseIf_sat_eq (b : Bool) (s : State) : State.raiseIf b .sat s = { s with sat := s.sat || b } := by
  cases b <;> simp [State.raiseIf, State.raise]

theorem State.raiseIf_cntsat_eq (b : Bool) (s : State) :
    State.raiseIf b .cntsat s = { s with cntsat := s.cntsat || b } := by
  cases b <;> simp [State.raiseIf, State.raise]

end Sys2Proof.Machine
end

