-- ==== Sys2Proof/Laws/Memory.lean ====
section
/-! SUPPORT. The laws of the histogram RAM: reading after a write, the canonical form, and the bound on a cell. -/

namespace Sys2Proof.Machine

/-! ## Reading after a write -/

theorem Memory.lookup_insertCell (l : List MemCell) (ra : Nat) (v : Word) (x : Nat) :
    Memory.lookup (Memory.insertCell l ra v) x = if ra = x then some v else Memory.lookup l x := by
  induction l with
  | nil => simp [Memory.insertCell, Memory.lookup]
  | cons p l ih =>
    obtain ⟨a, u⟩ := p
    by_cases h1 : ra < a
    · simp [Memory.insertCell, Memory.lookup, h1]
    · by_cases h2 : ra = a
      · subst h2
        by_cases h3 : ra = x <;> simp [Memory.insertCell, Memory.lookup, h3]
      · simp only [Memory.insertCell, h1, h2, if_false, Memory.lookup, ih]
        by_cases h3 : a = x
        · subst h3; simp [h2]
        · simp [h3]

/-- An address below every listed one is not listed. -/
theorem Memory.lookup_eq_none_of_lt (l : List MemCell) (x : Nat) (h : ∀ c ∈ l, x < c.1) : Memory.lookup l x = none := by
  induction l with
  | nil => rfl
  | cons p l ih =>
    have hp := h p List.mem_cons_self
    simp only [Memory.lookup, if_neg (by omega : ¬ p.1 = x)]
    exact ih fun c hc => h c (List.mem_cons_of_mem _ hc)

theorem Memory.lookup_removeCell (l : List MemCell) (hl : l.Pairwise (fun a b => a.1 < b.1)) (ra x : Nat) :
    Memory.lookup (Memory.removeCell l ra) x = if ra = x then none else Memory.lookup l x := by
  induction l with
  | nil => simp [Memory.removeCell, Memory.lookup]
  | cons p l ih =>
    obtain ⟨a, u⟩ := p
    obtain ⟨hlt, hl'⟩ := List.pairwise_cons.mp hl
    by_cases h1 : a = ra
    · subst h1
      by_cases h2 : a = x
      · subst h2; simp [Memory.removeCell, Memory.lookup_eq_none_of_lt l a hlt]
      · simp [Memory.removeCell, Memory.lookup, h2]
    · simp only [Memory.removeCell, h1, if_false, Memory.lookup, ih hl']
      by_cases h2 : a = x
      · subst h2; simp [Ne.symm h1]
      · simp [h2]

/-- A listed value is the value of an entry. -/
theorem Memory.mem_of_lookup {l : List MemCell} {x : Nat} {v : Word} (h : Memory.lookup l x = some v) : (x, v) ∈ l := by
  induction l with
  | nil => simp [Memory.lookup] at h
  | cons p l ih =>
    simp only [Memory.lookup] at h
    split at h
    · next heq => obtain rfl : p.2 = v := by simpa using h
                  subst heq; exact List.mem_cons_self
    · exact List.mem_cons_of_mem _ (ih h)

/-- Reading after a write: the value written at its address, every other cell as before. -/
theorem Memory.read_write {size : Nat} {m : Memory} (hm : m.wf size) (ra : Nat) (v : Word) (x : Nat) :
    (m.write ra v).read x = if ra = x then some v else m.read x := by
  unfold Memory.write
  split
  · next hf =>
    simp only [Memory.read, Memory.lookup_removeCell _ hm.1]
    by_cases h : ra = x <;> simp [h, hf]
  · simp only [Memory.read, Memory.lookup_insertCell]
    by_cases h : ra = x <;> simp [h]

/-- The same without the canonical form, for a value that unlisted cells do not hold. -/
theorem Memory.read_write_of_ne_fill (m : Memory) (ra : Nat) (v : Word) (hv : m.fill.value ≠ some v) (x : Nat) :
    (m.write ra v).read x = if ra = x then some v else m.read x := by
  simp only [Memory.write, hv, if_false, Memory.read, Memory.lookup_insertCell]
  by_cases h : ra = x <;> simp [h]

@[simp] theorem Memory.write_fill (m : Memory) (ra : Nat) (v : Word) : (m.write ra v).fill = m.fill := by
  unfold Memory.write; split <;> rfl

@[simp] theorem Memory.read_unspecified (ra : Nat) : Memory.unspecified.read ra = none := rfl

@[simp] theorem Memory.read_zeroed (ra : Nat) : Memory.zeroed.read ra = some 0#32 := rfl

/-! ## The canonical form -/

theorem Memory.mem_insertCell {l : List MemCell} {ra : Nat} {v : Word} {c : MemCell}
    (h : c ∈ Memory.insertCell l ra v) : c = (ra, v) ∨ c ∈ l := by
  induction l with
  | nil => simpa [Memory.insertCell] using h
  | cons p l ih =>
    simp only [Memory.insertCell] at h
    split at h
    · simpa using h
    · split at h
      · rcases List.mem_cons.mp h with h | h
        · exact .inl h
        · exact .inr (List.mem_cons_of_mem _ h)
      · rcases List.mem_cons.mp h with h | h
        · exact .inr (h ▸ List.mem_cons_self)
        · exact (ih h).imp id (List.mem_cons_of_mem _)

theorem Memory.mem_removeCell {l : List MemCell} {ra : Nat} {c : MemCell} (h : c ∈ Memory.removeCell l ra) : c ∈ l := by
  induction l with
  | nil => simp [Memory.removeCell] at h
  | cons p l ih =>
    simp only [Memory.removeCell] at h
    split at h
    · exact List.mem_cons_of_mem _ h
    · rcases List.mem_cons.mp h with h | h
      · exact h ▸ List.mem_cons_self
      · exact List.mem_cons_of_mem _ (ih h)

theorem Memory.pairwise_insertCell {l : List MemCell} (hl : l.Pairwise (fun a b => a.1 < b.1)) (ra : Nat) (v : Word) :
    (Memory.insertCell l ra v).Pairwise (fun a b => a.1 < b.1) := by
  induction l with
  | nil => simp [Memory.insertCell]
  | cons p l ih =>
    obtain ⟨hlt, hl'⟩ := List.pairwise_cons.mp hl
    simp only [Memory.insertCell]
    split
    · next h =>
      refine List.pairwise_cons.mpr ⟨fun c hc => ?_, hl⟩
      rcases List.mem_cons.mp hc with hc | hc
      · simpa [hc] using h
      · have := hlt c hc; simp only; omega
    · next h1 =>
      split
      · next h2 => subst h2; exact List.pairwise_cons.mpr ⟨hlt, hl'⟩
      · next h2 =>
        refine List.pairwise_cons.mpr ⟨fun c hc => ?_, ih hl'⟩
        rcases Memory.mem_insertCell hc with hc | hc
        · simp only [hc]; omega
        · exact hlt c hc

theorem Memory.pairwise_removeCell {l : List MemCell} (hl : l.Pairwise (fun a b => a.1 < b.1)) (ra : Nat) :
    (Memory.removeCell l ra).Pairwise (fun a b => a.1 < b.1) := by
  induction l with
  | nil => simp [Memory.removeCell]
  | cons p l ih =>
    obtain ⟨hlt, hl'⟩ := List.pairwise_cons.mp hl
    simp only [Memory.removeCell]
    split
    · exact hl'
    · exact List.pairwise_cons.mpr ⟨fun c hc => hlt c (Memory.mem_removeCell hc), ih hl'⟩

/-- A write keeps the canonical form. -/
theorem Memory.wf_write {size : Nat} {m : Memory} (hm : m.wf size) {ra : Nat} (hra : ra < size) (v : Word) :
    (m.write ra v).wf size := by
  refine ⟨?_, ?_⟩
  · unfold Memory.write
    split
    · exact Memory.pairwise_removeCell hm.1 ra
    · exact Memory.pairwise_insertCell hm.1 ra v
  · intro c hc
    rw [Memory.write_fill]
    unfold Memory.write at hc
    split at hc
    · exact hm.2 c (Memory.mem_removeCell hc)
    · next hv =>
      rcases Memory.mem_insertCell hc with rfl | hc
      · exact ⟨hra, hv⟩
      · exact hm.2 c hc

theorem Memory.wf_unspecified (size : Nat) : Memory.unspecified.wf size := by simp [Memory.unspecified, Memory.wf]

theorem Memory.wf_zeroed (size : Nat) : Memory.zeroed.wf size := by simp [Memory.zeroed, Memory.wf]

/-- The memories of the reset state are in canonical form. -/
theorem State.reset_memories_wf : State.reset.amp.wf ampCells ∧ State.reset.tdc.wf tdcCells :=
  ⟨Memory.wf_unspecified _, Memory.wf_unspecified _⟩

/-! ## The bound on a cell -/

theorem Memory.fits_write {cw : CellWidth} {m : Memory} (hm : m.fits cw) (ra : Nat) {v : Word}
    (hv : v.toNat ≤ cw.maxCount) : (m.write ra v).fits cw := by
  intro c hc
  unfold Memory.write at hc
  split at hc
  · exact hm c (Memory.mem_removeCell hc)
  · rcases Memory.mem_insertCell hc with rfl | hc
    · exact hv
    · exact hm c hc

/-- Every cell that is read fits CW bits. -/
theorem Memory.read_le {cw : CellWidth} {m : Memory} (hm : m.fits cw) {ra : Nat} {v : Word} (h : m.read ra = some v) :
    v.toNat ≤ cw.maxCount := by
  unfold Memory.read at h
  split at h
  · next w hw => obtain rfl : w = v := by simpa using h
                 exact hm _ (Memory.mem_of_lookup hw)
  · cases hf : m.fill with
    | unspec => simp [hf, Fill.value] at h
    | zero => obtain rfl : 0#32 = v := by simpa [hf, Fill.value] using h
              simp

/-! ## RAM addresses -/

theorem ampAddr_eq (c : Channel) (e : Energy) : ampAddr c e = c.toNat * 4096 + e.toNat := by
  have h := e.isLt
  simp only [ampAddr, BitVec.toNat_append]
  rw [← Nat.shiftLeft_add_eq_or_of_lt h, Nat.shiftLeft_eq]

theorem tdcAddr_eq (c : Channel) (t : TimeBin) : tdcAddr c t = c.toNat * 1024 + t.toNat := by
  have h := t.isLt
  simp only [tdcAddr, BitVec.toNat_append]
  rw [← Nat.shiftLeft_add_eq_or_of_lt h, Nat.shiftLeft_eq]

theorem ampAddr_lt (c : Channel) (e : Energy) : ampAddr c e < ampCells := (c ++ e : BitVec 21).isLt

theorem tdcAddr_lt (c : Channel) (t : TimeBin) : tdcAddr c t < tdcCells := (c ++ t : BitVec 19).isLt

theorem ampAddr_inj {c c' : Channel} {e e' : Energy} (h : ampAddr c e = ampAddr c' e') : c = c' ∧ e = e' := by
  have := e.isLt; have := e'.isLt
  rw [ampAddr_eq, ampAddr_eq] at h
  exact ⟨BitVec.eq_of_toNat_eq (by omega), BitVec.eq_of_toNat_eq (by omega)⟩

theorem tdcAddr_inj {c c' : Channel} {t t' : TimeBin} (h : tdcAddr c t = tdcAddr c' t') : c = c' ∧ t = t' := by
  have := t.isLt; have := t'.isLt
  rw [tdcAddr_eq, tdcAddr_eq] at h
  exact ⟨BitVec.eq_of_toNat_eq (by omega), BitVec.eq_of_toNat_eq (by omega)⟩

end Sys2Proof.Machine
end

