-- ==== Sys2Proof/Laws/Ops.lean ====
section
/-! SUPPORT. One lemma per shared operation that says all it can do; later proofs cite these and do not unfold. -/

namespace Sys2Proof.Machine

/-! ## Sequencing -/

@[simp] theorem andThen_next (s : State) (f : State → Result) : andThen (.next s) f = f s := rfl

@[simp] theorem andThen_fault (x : Fault) (f : State → Result) : andThen (.fault x) f = .fault x := rfl

theorem andThen_eq_next {r : Result} {f : State → Result} {t : State} :
    andThen r f = .next t ↔ ∃ s, r = .next s ∧ f s = .next t := by
  cases r <;> simp [andThen]

/-! ## The saturating increment -/

@[simp] theorem satInc_snd (w : Nat) (x : Word) : (satInc w x).2 = decide (¬ x.toNat < 2 ^ w - 1) := by
  unfold satInc; split <;> simp_all

theorem satInc_fst (w : Nat) (x : Word) : (satInc w x).1 = if x.toNat < 2 ^ w - 1 then x + 1#32 else x := by
  unfold satInc; split <;> rfl

theorem two_pow_le (cw : CellWidth) : 2 ≤ 2 ^ cw.bits ∧ 2 ^ cw.bits ≤ 4294967296 :=
  ⟨by simpa using Nat.pow_le_pow_right (n := 2) (by omega) cw.one_le,
   by simpa using Nat.pow_le_pow_right (n := 2) (by omega) cw.le_32⟩

/-- A cell that fits is incremented exactly, or held at the largest value. -/
theorem satInc_toNat (cw : CellWidth) {x : Word} (hx : x.toNat ≤ cw.maxCount) :
    (satInc cw.bits x).1.toNat = min cw.maxCount (x.toNat + 1) := by
  have h := two_pow_le cw
  unfold CellWidth.maxCount at *
  rw [satInc_fst]
  split
  · simp only [BitVec.toNat_add, BitVec.toNat_ofNat]; omega
  · omega

theorem satInc_le (cw : CellWidth) {x : Word} (hx : x.toNat ≤ cw.maxCount) :
    (satInc cw.bits x).1.toNat ≤ cw.maxCount := by rw [satInc_toNat cw hx]; omega

/-- No cell value decreases. -/
theorem le_satInc (cw : CellWidth) (x : Word) : x.toNat ≤ (satInc cw.bits x).1.toNat := by
  have h := two_pow_le cw
  rw [satInc_fst]
  split
  · simp only [BitVec.toNat_add, BitVec.toNat_ofNat]; omega
  · omega

/-- An increment never writes 0. -/
theorem satInc_ne_zero (cw : CellWidth) (x : Word) : (satInc cw.bits x).1 ≠ 0#32 := by
  have h := two_pow_le cw
  intro hz
  have hz' := congrArg BitVec.toNat hz
  rw [satInc_fst] at hz'
  split at hz'
  · simp only [BitVec.toNat_add, BitVec.toNat_ofNat] at hz'; omega
  · simp only [BitVec.toNat_ofNat] at hz'; omega

theorem satInc_32 (x : Word) :
    satInc 32 x = if x = 0xFFFFFFFF#32 then (0xFFFFFFFF#32, true) else (x + 1#32, false) := by
  unfold satInc
  by_cases h : x = 0xFFFFFFFF#32
  · subst h; rfl
  · have : x.toNat ≠ 4294967295 := fun hn => h (BitVec.eq_of_toNat_eq (by simpa using hn))
    simp only [h, if_false]
    rw [if_pos (by omega)]

/-- What an increment writes is never what unlisted cells hold. -/
theorem fill_ne_satInc (m : Memory) (cw : CellWidth) (x : Word) : m.fill.value ≠ some (satInc cw.bits x).1 := by
  cases h : m.fill with
  | unspec => simp [Fill.value]
  | zero => simpa [Fill.value] using (satInc_ne_zero cw x).symm

/-- Reading after the increment of a cell. -/
theorem Memory.read_write_satInc (m : Memory) (cw : CellWidth) (ra : Nat) (v : Word) (x : Nat) :
    (m.write ra (satInc cw.bits v).1).read x = if ra = x then some (satInc cw.bits v).1 else m.read x :=
  Memory.read_write_of_ne_fill m ra _ (fill_ne_satInc m cw v) x

theorem Memory.increment_eq_some {cw : CellWidth} {m m' : Memory} {ra : Nat} {b : Bool} :
    m.increment cw ra = some (m', b) ↔
      ∃ v, m.read ra = some v ∧ m' = m.write ra (satInc cw.bits v).1 ∧ b = (satInc cw.bits v).2 := by
  unfold Memory.increment
  cases m.read ra <;> simp [eq_comm]

/-! ## Counters -/

theorem State.rsvdNote_eq (s : State) :
    s.rsvdNote = { s with rsvdCount := (satInc 32 s.rsvdCount).1, cntsat := s.cntsat || (satInc 32 s.rsvdCount).2 } := by
  simp [State.rsvdNote, State.raiseIf_cntsat_eq]

theorem State.pairDone_eq (s : State) :
    s.pairDone = { s with pairCount := (satInc 32 s.pairCount).1, cntsat := s.cntsat || (satInc 32 s.pairCount).2 } := by
  simp [State.pairDone, State.raiseIf_cntsat_eq]

theorem State.clockAction_eq (w : Word) (s : State) :
    s.clockAction w = { s with
      clockLast := w, pairCount := (satInc 32 s.pairCount).1, cntsat := s.cntsat || (satInc 32 s.pairCount).2 } := by
  simp [State.clockAction, State.pairDone_eq]

/-! ## The event action -/

/-- The state after an event word whose two cells held `u` and `v`. -/
def State.afterEvent (s : State) (f : EventFields) (u v : Word) : State :=
  { s with
    amp := s.amp.write (ampAddr f.channel f.energy) (satInc s.config.cw.bits u).1
    tdc := s.tdc.write (tdcAddr f.channel f.time) (satInc s.config.cw.bits v).1
    sat := (s.sat || (satInc s.config.cw.bits u).2) || (satInc s.config.cw.bits v).2
    rsvdCount := if f.r = 1#1 then (satInc 32 s.rsvdCount).1 else s.rsvdCount
    cntsat := s.cntsat || (decide (f.r = 1#1) && (satInc 32 s.rsvdCount).2) }

/-- EVENT_WORD answers a next state exactly when both its cells hold a value, and this one. -/
theorem State.eventAction_eq_next {f : EventFields} {s t : State} :
    s.eventAction f = .next t ↔
      ∃ u v, s.amp.read (ampAddr f.channel f.energy) = some u ∧ s.tdc.read (tdcAddr f.channel f.time) = some v ∧
        t = s.afterEvent f u v := by
  unfold State.eventAction State.incrAmp State.incrTdc Memory.increment
  cases ha : s.amp.read (ampAddr f.channel f.energy) with
  | none => simp
  | some u =>
    cases ht : s.tdc.read (tdcAddr f.channel f.time) with
    | none => simp [State.raiseIf_sat_eq, ht]
    | some v =>
      by_cases hr : f.r = 1#1 <;>
        simp [State.raiseIf_sat_eq, ht, State.afterEvent, State.rsvdNote_eq, hr, eq_comm]

/-! ## Accepting a byte -/

/-- What an accepted byte can do: complete the event word, complete the clock word, or be stored. -/
theorem State.acceptByte_cases {d : Byte} {s t : State} (h : s.acceptByte d = .next t) :
    (s.bytePos = 3#3 ∧ ∃ u v,
      s.amp.read (ampAddr (extract (s.abufWith d)).channel (extract (s.abufWith d)).energy) = some u ∧
      s.tdc.read (tdcAddr (extract (s.abufWith d)).channel (extract (s.abufWith d)).time) = some v ∧
      t = { s.afterEvent (extract (s.abufWith d)) u v with abuf := 0#32, bytePos := 4#3 }) ∨
    (s.bytePos = 7#3 ∧ t = { s.clockAction (s.abufWith d) with abuf := 0#32, bytePos := 0#3 }) ∨
    (s.bytePos ≠ 3#3 ∧ s.bytePos ≠ 7#3 ∧ t = { s with abuf := s.abufWith d, bytePos := s.bytePos + 1#3 }) := by
  unfold State.acceptByte at h
  split at h
  · next h3 =>
    obtain ⟨s1, h1, h2⟩ := andThen_eq_next.mp h
    obtain ⟨u, v, hu, hv, rfl⟩ := State.eventAction_eq_next.mp h1
    cases h2
    exact .inl ⟨h3, u, v, hu, hv, by simp [State.afterEvent, State.advance, h3]⟩
  · split at h
    · next h7 => cases h; exact .inr (.inl ⟨h7, by simp [State.clockAction_eq, State.advance, h7]⟩)
    · next h3 h7 => cases h; exact .inr (.inr ⟨h3, h7, rfl⟩)

/-! ## Fetching -/

/-- What one step can do: stand still, take RESET, leave a transfer waiting, or run a decoded transaction. -/
theorem step_cases {s t : State} (h : step s = .next t) :
    (s.schedule = [] ∧ t = s) ∨
    (∃ ts, s.schedule = .resetSignal :: ts ∧ t = State.takeReset { s with schedule := ts }) ∨
    (∃ ts, s.schedule = .producer :: ts ∧ s.streamOffers = [] ∧ t = { s with schedule := ts }) ∨
    (∃ ts, s.schedule = .host :: ts ∧ s.hostIssues = [] ∧ t = { s with schedule := ts }) ∨
    (∃ ts x xs, s.schedule = .producer :: ts ∧ s.streamOffers = x :: xs ∧ s.runState ≠ .accum ∧
      exec (decode (.stx9 x)) { s with schedule := ts } = .next t) ∨
    (∃ ts x xs, s.schedule = .producer :: ts ∧ s.streamOffers = x :: xs ∧ s.runState = .accum ∧
      exec (decode (.stx9 x)) { s with schedule := ts, streamOffers := xs } = .next t) ∨
    (∃ ts a as, s.schedule = .host :: ts ∧ s.hostIssues = a :: as ∧
      exec (decode (.htx56 a)) { s with schedule := ts, hostIssues := as } = .next t) := by
  unfold step State.fetch at h
  rcases hs : s.schedule with _ | ⟨_ | _ | _, ts⟩ <;> rw [hs] at h
  · exact .inl ⟨rfl, (by simpa using h.symm)⟩
  · rcases ho : s.streamOffers with _ | ⟨x, xs⟩ <;> rw [ho] at h
    · exact .inr (.inr (.inl ⟨ts, rfl, rfl, by simpa [ho] using h.symm⟩))
    · by_cases hr : s.runState = .accum
      · refine .inr (.inr (.inr (.inr (.inr (.inl ⟨ts, x, xs, rfl, rfl, hr, ?_⟩)))))
        simpa [State.streamReady, hr] using h
      · refine .inr (.inr (.inr (.inr (.inl ⟨ts, x, xs, rfl, rfl, hr, ?_⟩))))
        simpa [State.streamReady, hr, ← ho] using h
  · rcases ho : s.hostIssues with _ | ⟨a, as⟩ <;> rw [ho] at h
    · exact .inr (.inr (.inr (.inl ⟨ts, rfl, rfl, by simpa [ho] using h.symm⟩)))
    · exact .inr (.inr (.inr (.inr (.inr (.inr ⟨ts, a, as, rfl, rfl, h⟩)))))
  · exact .inr (.inl ⟨ts, rfl, by simpa using h.symm⟩)

/-! ## Field accessors of an encoded host transaction -/

@[simp] theorem htxWe_pack (we : BitVec 1) (a : HostAddr) (d : Word) : htxWe (packHtx56 we a d) = we := by
  ext i hi
  obtain rfl : i = 0 := by omega
  simp [htxWe, packHtx56]

@[simp] theorem htxAddr_pack (we : BitVec 1) (a : HostAddr) (d : Word) : htxAddr (packHtx56 we a d) = a := by
  ext i hi
  simp [htxAddr, packHtx56, hi, show 32 + i < 56 by omega, show 32 + i < 55 by omega]

@[simp] theorem htxData_pack (we : BitVec 1) (a : HostAddr) (d : Word) : htxData (packHtx56 we a d) = d := by
  ext i hi
  simp [htxData, packHtx56, hi, show i < 56 by omega, show i < 55 by omega]

/-- A host transaction is its three fields. -/
theorem packHtx56_fields (h : Htx56) : packHtx56 (htxWe h) (htxAddr h) (htxData h) = h := by
  ext i hi
  simp only [htxWe, htxAddr, htxData, packHtx56, BitVec.getElem_or, BitVec.getElem_shiftLeft,
    BitVec.getElem_setWidth, BitVec.getLsbD_extractLsb']
  by_cases h1 : i < 32
  · simp [h1, hi, show i < 55 by omega]
  · by_cases h2 : i < 55
    · simp [h1, h2, hi, show 32 + (i - 32) = i by omega, show i - 32 < 23 by omega]
    · obtain rfl : i = 55 := by omega
      simp

/-- ANDing two packed transactions is ANDing their fields. -/
theorem packHtx56_and (we mw : BitVec 1) (a ma : HostAddr) (d md : Word) :
    packHtx56 we a d &&& packHtx56 mw ma md = packHtx56 (we &&& mw) (a &&& ma) (d &&& md) := by
  ext i hi
  simp only [packHtx56, BitVec.getElem_or, BitVec.getElem_and, BitVec.getElem_shiftLeft, BitVec.getElem_setWidth]
  by_cases h1 : i < 32
  · simp [h1, show i < 55 by omega]
  · by_cases h2 : i < 55
    · simp [h1, h2, BitVec.getLsbD_of_ge d i (by omega), BitVec.getLsbD_of_ge md i (by omega)]
    · obtain rfl : i = 55 := by omega
      simp

/-- A packed transaction determines its fields. -/
theorem packHtx56_inj {we we' : BitVec 1} {a a' : HostAddr} {d d' : Word} :
    packHtx56 we a d = packHtx56 we' a' d' ↔ we = we' ∧ a = a' ∧ d = d' := by
  refine ⟨fun h => ⟨?_, ?_, ?_⟩, by rintro ⟨rfl, rfl, rfl⟩; rfl⟩
  · simpa using congrArg htxWe h
  · simpa using congrArg htxAddr h
  · simpa using congrArg htxData h

/-- A packed transaction matches a packed row field by field. -/
theorem OpcodeRow.accepts_pack (f : Format) (vw mw we : BitVec 1) (va ma a : HostAddr) (vd md d : Word) :
    (OpcodeRow.mk f (packHtx56 vw va vd) (packHtx56 mw ma md)).accepts (packHtx56 we a d) = true ↔
      we &&& mw = vw ∧ a &&& ma = va ∧ d &&& md = vd := by
  simp [OpcodeRow.accepts, packHtx56_and, packHtx56_inj]

end Sys2Proof.Machine
end

