-- ==== Sys2Proof/Laws/PerInstr.lean ====
section
/-! SUPPORT. The family FixedBits: the encoding of every well-formed operation is in its opcode-table row's format and
has the row's values at the bits the row fixes (spec/opcode_table.json, "match" and "mask"). -/

open Sys2Proof.Machine

namespace Sys2Proof.Laws.FixedBits

def Statement (i : Instr) : Prop :=
  i.wellFormed = true → (encode i).format = (opcodeRow i).format ∧ (opcodeRow i).accepts (encode i).bits = true

/-- A host row accepts a packed transaction when its packed fields do. -/
theorem host_accepts {f : Format} {value mask : BitVec 56} {we : BitVec 1} {a : HostAddr} {d : Word}
    (vw mw : BitVec 1) (va ma : HostAddr) (vd md : Word) (hv : value = packHtx56 vw va vd) (hm : mask = packHtx56 mw ma md)
    (hw : we &&& mw = vw) (ha : a &&& ma = va) (hd : d &&& md = vd) :
    (OpcodeRow.mk f value mask).accepts (packHtx56 we a d) = true := by
  subst hv hm
  exact (OpcodeRow.accepts_pack ..).mpr ⟨hw, ha, hd⟩

/-- The rows of the register reads: every bit of `we` and `A` fixed. -/
theorem register_accepts {value : BitVec 56} (a : HostAddr) (d : Word) (hv : value = packHtx56 0#1 a 0#32)
    (ha : a &&& 0x7FFFFF#23 = a) :
    (OpcodeRow.mk .htx56 value 0xFFFFFF00000000#56).accepts (packHtx56 0#1 a d) = true :=
  host_accepts 0 1 a 0x7FFFFF 0 0 hv (by decide) (by decide) ha (by simp)

theorem sByte (d : Byte) : Statement (.sByte d) := by
  refine fun _ => ⟨rfl, ?_⟩
  revert d; decide

theorem sEos (dc : Byte) : Statement (.sEos dc) := by
  refine fun _ => ⟨rfl, ?_⟩
  revert dc; decide

theorem eventWord (r : BitVec 1) (c : Channel) (t : TimeBin) (e : Energy) : Statement (.eventWord r c t e) :=
  fun _ => ⟨rfl, by simp [opcodeRow, OpcodeRow.accepts]⟩

theorem clockWord (w : Word) : Statement (.clockWord w) := fun _ => ⟨rfl, by simp [opcodeRow, OpcodeRow.accepts]⟩

theorem hStart (dc : BitVec 31) : Statement (.hStart dc) := by
  refine fun _ => ⟨rfl, host_accepts 1 1 0 0x7FFFFF 1 1 (by decide) (by decide) (by decide) (by decide) ?_⟩
  ext i hi
  by_cases h : i = 0 <;> simp [h]

theorem hWrCtrlNop (dc : BitVec 31) : Statement (.hWrCtrlNop dc) := by
  refine fun _ => ⟨rfl, host_accepts 1 1 0 0x7FFFFF 0 1 (by decide) (by decide) (by decide) (by decide) ?_⟩
  ext i hi
  by_cases h : i = 0 <;> simp [h]

theorem hWrIllegal (a : HostAddr) (d : Word) : Statement (.hWrIllegal a d) :=
  fun _ => ⟨rfl, host_accepts 1 1 0 0 0 0 (by decide) (by decide) (by decide) (by simp) (by simp)⟩

theorem hRdCtrl (dc : Word) : Statement (.hRdCtrl dc) :=
  fun _ => ⟨rfl, register_accepts 0x000000 dc (by decide) (by decide)⟩

theorem hRdStatus (dc : Word) : Statement (.hRdStatus dc) :=
  fun _ => ⟨rfl, register_accepts 0x000001 dc (by decide) (by decide)⟩

theorem hRdClockLast (dc : Word) : Statement (.hRdClockLast dc) :=
  fun _ => ⟨rfl, register_accepts 0x000002 dc (by decide) (by decide)⟩

theorem hRdPairCount (dc : Word) : Statement (.hRdPairCount dc) :=
  fun _ => ⟨rfl, register_accepts 0x000003 dc (by decide) (by decide)⟩

theorem hRdRsvdCount (dc : Word) : Statement (.hRdRsvdCount dc) :=
  fun _ => ⟨rfl, register_accepts 0x000004 dc (by decide) (by decide)⟩

theorem hRdConfig (dc : Word) : Statement (.hRdConfig dc) :=
  fun _ => ⟨rfl, register_accepts 0x000005 dc (by decide) (by decide)⟩

theorem hRdAmp (c : Channel) (e : Energy) (dc : Word) : Statement (.hRdAmp c e dc) := by
  refine fun _ => ⟨rfl, host_accepts 0 1 0x200000 0x600000 0 0 (by decide) (by decide) (by decide) ?_ (by simp)⟩
  ext i hi
  simp only [ampWindowAddr]
  interval_cases i <;> simp

theorem hRdTdc (c : Channel) (t : TimeBin) (dc : Word) : Statement (.hRdTdc c t dc) := by
  refine fun _ => ⟨rfl, host_accepts 0 1 0x400000 0x780000 0 0 (by decide) (by decide) (by decide) ?_ (by simp)⟩
  ext i hi
  simp only [tdcWindowAddr]
  interval_cases i <;> simp

theorem hRdReserved (a : HostAddr) (dc : Word) : Statement (.hRdReserved a dc) :=
  fun _ => ⟨rfl, host_accepts 0 1 0 0 0 0 (by decide) (by decide) (by decide) (by simp) (by simp)⟩

end Sys2Proof.Laws.FixedBits
end

