-- ==== Sys2Proof/Laws/Sums.lean ====
section
/-! SUPPORT. How the sum over a table changes when one cell changes. -/

namespace Sys2Proof.Machine

/-- Two families that agree but at `(a, b)` have sums that differ by what they differ there. -/
theorem sum_update {α β : Type} [Fintype α] [Fintype β] [DecidableEq α] [DecidableEq β] (f g : α → β → Nat) (a : α) (b : β)
    (h : ∀ x y, ¬ (x = a ∧ y = b) → g x y = f x y) : (∑ x, ∑ y, g x y) + f a b = (∑ x, ∑ y, f x y) + g a b := by
  rw [← Fintype.sum_prod_type' g, ← Fintype.sum_prod_type' f,
    ← Finset.add_sum_erase _ (fun x => g x.1 x.2) (Finset.mem_univ ((a, b) : α × β)),
    ← Finset.add_sum_erase _ (fun x => f x.1 x.2) (Finset.mem_univ ((a, b) : α × β)),
    Finset.sum_congr rfl fun x hx => h x.1 x.2 fun hh => Finset.ne_of_mem_erase hx (Prod.ext hh.1 hh.2)]
  simp only []
  omega

/-- The amplitude table's sum after one of its cells has gone from `u` to `u'`. -/
theorem ampTotal_update {s s' : State} {c : Channel} {e : Energy} {u u' : Word} (hu : s.amp.read (ampAddr c e) = some u)
    (h : ∀ ra, s'.amp.read ra = if ampAddr c e = ra then some u' else s.amp.read ra) :
    s'.ampTotal + u.toNat = s.ampTotal + u'.toNat := by
  have hsum := sum_update (fun (x : Fin 512) (y : Fin 4096) => cellCount (s.amp.read (ampAddr (.ofFin x) (.ofFin y))))
    (fun x y => cellCount (s'.amp.read (ampAddr (.ofFin x) (.ofFin y)))) c.toFin e.toFin (by
      intro x y hxy
      rw [h, if_neg]
      intro hh
      obtain ⟨h1, h2⟩ := ampAddr_inj hh
      exact hxy ⟨by rw [h1], by rw [h2]⟩)
  simpa [State.ampTotal, h, hu, cellCount] using hsum

/-- The timing table's sum after one of its cells has gone from `u` to `u'`. -/
theorem tdcTotal_update {s s' : State} {c : Channel} {t : TimeBin} {u u' : Word} (hu : s.tdc.read (tdcAddr c t) = some u)
    (h : ∀ ra, s'.tdc.read ra = if tdcAddr c t = ra then some u' else s.tdc.read ra) :
    s'.tdcTotal + u.toNat = s.tdcTotal + u'.toNat := by
  have hsum := sum_update (fun (x : Fin 512) (y : Fin 1024) => cellCount (s.tdc.read (tdcAddr (.ofFin x) (.ofFin y))))
    (fun x y => cellCount (s'.tdc.read (tdcAddr (.ofFin x) (.ofFin y)))) c.toFin t.toFin (by
      intro x y hxy
      rw [h, if_neg]
      intro hh
      obtain ⟨h1, h2⟩ := tdcAddr_inj hh
      exact hxy ⟨by rw [h1], by rw [h2]⟩)
  simpa [State.tdcTotal, h, hu, cellCount] using hsum

/-- The sums of tables that hold 0 in every cell. -/
theorem totals_eq_zero {s : State} (h : s.cellsZero) : s.ampTotal = 0 ∧ s.tdcTotal = 0 :=
  ⟨by simp [State.ampTotal, h.1, cellCount], by simp [State.tdcTotal, h.2, cellCount]⟩

end Sys2Proof.Machine
end

