-- ==== Sys2Proof/Tests/Slice0.lean ====
section
/-! SUPPORT. The model's own tests. Expected results are those of spec/95_test_vectors.md (the vector is named at each
test) or of the rule named there; then, for every statement with hypotheses, a witness that meets them. -/

namespace Sys2Proof.Tests

open Sys2Proof Sys2Proof.Machine

/-! ## Helpers -/

/-- The next state of an answer, if it is one. -/
def stateOf (r : Result) : Option State :=
  match r with
  | .next s => some s
  | .fault _ => none
  | .refused _ => none

/-- S0 of 95_test_vectors.md. -/
def s0 : State := State.reset

/-- S1 of 95_test_vectors.md. -/
def s1 : State := State.reset.start

/-- Cell width `n`, of those the spec allows. -/
def width (n : Nat) (h1 : 1 ≤ n := by decide) (h2 : n ≤ 32 := by decide) : Config := ⟨⟨n, h1, h2⟩⟩

/-- A memory that holds 0 everywhere but at one address. -/
def oneCell (ra : Nat) (v : Word) : Memory := Memory.zeroed.write ra v

/-- The end of V-L1-3. -/
def v3 : State :=
  { s1 with
    runState := .done, clockLast := 0x01000000#32, pairCount := 1#32
    amp := oneCell (ampAddr 1#9 255#12) 1#32, tdc := oneCell (tdcAddr 1#9 0#10) 1#32 }

/-- The end of V-L1-6: five bytes, then the end of stream. -/
def v6 : State :=
  { s1 with
    runState := .error, trunc := true, bytePos := 5#3, abuf := 0x00000005#32
    amp := oneCell (ampAddr 16#9 513#12) 1#32, tdc := oneCell (tdcAddr 16#9 48#10) 1#32 }

/-- ACCUM with the first `pos` bytes of a pair accepted; the bytes of the current word are `abuf`. -/
def inPair (pos : BitVec 3) (abuf : Word) : State := { s1 with bytePos := pos, abuf := abuf }

/-- `s` with `h` the host's next access, and its turn. -/
def hostTurn (h : Htx56) (s : State) : State := { s with schedule := [.host], hostIssues := [h] }

/-- `s` with `x` the producer's next transfer, and its turn. -/
def producerTurn (x : Stx9) (s : State) : State := { s with schedule := [.producer], streamOffers := [x] }

/-- `s` with the RESET signal next. -/
def resetTurn (s : State) : State := { s with schedule := [.resetSignal] }

/-! ## Well-formedness: an ill-formed term for each check -/

theorem test_illformed_write_to_ctrl : (Instr.hWrIllegal 0x000000#23 5#32).wellFormed = false := by decide
theorem test_illformed_reserved_register : (Instr.hRdReserved 0x000005#23 0#32).wellFormed = false := by decide
theorem test_illformed_reserved_amp_low : (Instr.hRdReserved 0x200000#23 0#32).wellFormed = false := by decide
theorem test_illformed_reserved_tdc_high : (Instr.hRdReserved 0x47FFFF#23 0#32).wellFormed = false := by decide

/-! ## Decoding: a word of the spec for every operation (vectors named; 30_encoding.md for the fields) -/

/-- V-L1-3, first byte. -/
theorem test_decode_sByte : decode (.stx9 0b011111111#9) = .sByte 0xFF#8 := by decide
/-- V-L1-3, EOS; and R83's ignored `d`. -/
theorem test_decode_sEos : decode (.stx9 0b100000000#9) = .sEos 0#8 ∧ decode (.stx9 0x1A5#9) = .sEos 0xA5#8 := by decide
/-- 0x55555555 of the EXTRACT vectors, bit by bit: r, c, t, e. -/
theorem test_decode_eventWord :
    decode (.evt32 0b01010101010101010101010101010101#32) = .eventWord 0#1 341#9 341#10 1365#12 := by decide
/-- The EXTRACT vectors that separate the fields: lowest channel bit, time alone, energy alone, reserved bit alone. -/
theorem test_decode_eventWord_fields :
    extract 0x00400000#32 = ⟨0#1, 1#9, 0#10, 0#12⟩ ∧ extract 0x003FF000#32 = ⟨0#1, 0#9, 1023#10, 0#12⟩ ∧
    extract 0x00000FFF#32 = ⟨0#1, 0#9, 0#10, 4095#12⟩ ∧ extract 0x80000000#32 = ⟨1#1, 0#9, 0#10, 0#12⟩ ∧
    extract 0xAAAAAAAA#32 = ⟨1#1, 170#9, 682#10, 2730#12⟩ := by decide
/-- V-L1-3, the clock word. -/
theorem test_decode_clockWord : decode (.clk32 0x01000000#32) = .clockWord 0x01000000#32 := by decide
/-- H-18 and H-17. -/
theorem test_decode_hStart :
    decode (.htx56 0x80000000000001#56) = .hStart 0#31 ∧ decode (.htx56 0x800000FFFFFFFF#56) = .hStart 0x7FFFFFFF#31 := by
  decide
/-- H-16. -/
theorem test_decode_hWrCtrlNop : decode (.htx56 0x800000FFFFFFFE#56) = .hWrCtrlNop 0x7FFFFFFF#31 := by decide
/-- H-14 and H-15. -/
theorem test_decode_hWrIllegal :
    decode (.htx56 0xA0000000000005#56) = .hWrIllegal 0x200000#23 5#32 ∧
    decode (.htx56 0x80000200000007#56) = .hWrIllegal 2#23 7#32 := by decide
/-- H-1 to H-6. -/
theorem test_decode_registers :
    decode (.htx56 0x00000000000000#56) = .hRdCtrl 0#32 ∧ decode (.htx56 0x00000100000000#56) = .hRdStatus 0#32 ∧
    decode (.htx56 0x00000200000000#56) = .hRdClockLast 0#32 ∧ decode (.htx56 0x00000300000000#56) = .hRdPairCount 0#32 ∧
    decode (.htx56 0x00000400000000#56) = .hRdRsvdCount 0#32 ∧ decode (.htx56 0x00000500000000#56) = .hRdConfig 0#32 := by
  decide
/-- P1's read of AMP[2][300], and H-10. -/
theorem test_decode_hRdAmp :
    decode (.htx56 0x20212C00000000#56) = .hRdAmp 2#9 300#12 0#32 ∧
    decode (.htx56 0x3FFFFF00000000#56) = .hRdAmp 511#9 4095#12 0#32 := by decide
/-- P1's read of TDC[2][9], and H-11. -/
theorem test_decode_hRdTdc :
    decode (.htx56 0x40080900000000#56) = .hRdTdc 2#9 9#10 0#32 ∧
    decode (.htx56 0x47FFFF00000000#56) = .hRdTdc 511#9 1023#10 0#32 := by decide
/-- H-7, H-13, H-12. -/
theorem test_decode_hRdReserved :
    decode (.htx56 0x00000600000000#56) = .hRdReserved 6#23 0#32 ∧
    decode (.htx56 0x1FFFFF00000000#56) = .hRdReserved 0x1FFFFF#23 0#32 ∧
    decode (.htx56 0x48000000000000#56) = .hRdReserved 0x480000#23 0#32 := by decide

/-- Bytes as R51 lays them out; a wrong length and a stray bit are rejected by name. -/
theorem test_decodeBytes :
    decodeBytes .evt32 [0x01#8, 0x02#8, 0x03#8, 0x04#8] = .ok (.eventWord 0#1 16#9 48#10 513#12) ∧
    decodeBytes .evt32 [0x01#8] = .error .wrongLength ∧ decodeBytes .stx9 [0x00#8, 0x02#8] = .error .strayBits := ⟨rfl, rfl, rfl⟩

/-- Table words of the three widths, and a width that no row has. -/
theorem test_decodeTableWord :
    decodeTableWord 16 0x100 = some (.sEos 0#8) ∧ decodeTableWord 32 0x004000FF = some (.eventWord 0#1 1#9 0#10 255#12) ∧
    decodeTableWord 56 0x80000000000001 = some (.hStart 0#31) ∧ decodeTableWord 72 0 = none := by decide

/-- P1's expansions (R92): the bytes of `PAIR 2, 7, 300, 0x00000010`, and the windows' addresses. -/
theorem test_pseudo_ops :
    opPair 2#9 7#10 300#12 0x10#32 = [0x02C#9, 0x071#9, 0x080#9, 0x000#9, 0x010#9, 0x000#9, 0x000#9, 0x000#9] ∧
    opEventR 1#1 5#9 0#10 100#12 = [0x064#9, 0x000#9, 0x040#9, 0x081#9] ∧ opEos = 0x100#9 ∧
    opStart = 0x80000000000001#56 ∧ opStatus = 0x00000100000000#56 ∧ opRdAmp 1#9 255#12 = 0x2010FF00000000#56 ∧
    opRdTdc 1#9 0#10 = 0x40040000000000#56 := by decide

/-! ## One step of each operation -/

/-- W-1 and W-2: the first byte goes to lane 0, the second to lane 1. -/
theorem test_sByte_lanes :
    stateOf (exec (.sByte 0x01#8) s1) = some (inPair 1#3 0x00000001#32) ∧
    stateOf (exec (.sByte 0x02#8) (inPair 1#3 0x00000001#32)) = some (inPair 2#3 0x00000201#32) := by decide

/-- V-L1-4 (W-4): the fourth byte completes and counts the event word. -/
theorem test_sByte_event :
    (stateOf (exec (.sByte 0x04#8) (inPair 3#3 0x00030201#32))).map (fun t =>
      (t.statusWord, t.abuf, t.amp.read (ampAddr 16#9 513#12), t.tdc.read (tdcAddr 16#9 48#10), t.tdc.read 0)) =
    some (0x00000401#32, 0#32, some 1#32, some 1#32, some 0#32) := by decide

/-- W-5 (empty run), and V-L1-6 (truncation at BYTEPOS 5). -/
theorem test_sEos :
    (stateOf (exec (.sEos 0#8) s1)).map State.statusWord = some 0x00000002#32 ∧
    (stateOf (exec (.sEos 0#8) (inPair 5#3 5#32))).map State.statusWord = some 0x00000507#32 := by decide

/-- A-7: a full cell stays, SAT is set, the other table counts on. -/
theorem test_eventWord_saturates :
    (stateOf (exec (.eventWord 0#1 3#9 3#10 3#12) { s1 with amp := oneCell (ampAddr 3#9 3#12) 0xFFFFFFFF#32 })).map (fun t =>
      (t.amp.read (ampAddr 3#9 3#12), t.tdc.read (tdcAddr 3#9 3#10), t.sat, t.cntsat)) =
    some (some 0xFFFFFFFF#32, some 1#32, true, false) := by decide

/-- A-5's last event at CW = 2 with the reserved bit of A-9: the cells stay 3, RSVD_COUNT stays, both flags are set. -/
theorem test_eventWord_counters :
    (stateOf (exec (.eventWord 1#1 5#9 0#10 100#12)
      { s1 with
        config := width 2, rsvdCount := 0xFFFFFFFF#32
        amp := oneCell (ampAddr 5#9 100#12) 3#32, tdc := oneCell (tdcAddr 5#9 0#10) 2#32 })).map (fun t =>
      (t.amp.read (ampAddr 5#9 100#12), t.tdc.read (tdcAddr 5#9 0#10), t.rsvdCount, t.sat, t.cntsat)) =
    some (some 3#32, some 3#32, 0xFFFFFFFF#32, true, true) := by decide

/-- A-10, and K-2 (a decreasing clock word is accepted without comment). -/
theorem test_clockWord :
    stateOf (exec (.clockWord 9#32) { s1 with pairCount := 0xFFFFFFFF#32 }) =
      some { s1 with pairCount := 0xFFFFFFFF#32, clockLast := 9#32, cntsat := true } ∧
    stateOf (exec (.clockWord 3#32) { s1 with pairCount := 1#32, clockLast := 5#32 }) =
      some { s1 with pairCount := 2#32, clockLast := 3#32 } := by decide

/-- H-18, H-19: START leaves ERROR, clears every flag and counter. -/
theorem test_hStart :
    stateOf (exec (.hStart 0#31) { v6 with accerr := true, sat := true, cntsat := true, rsvdCount := 3#32 }) = some s1 := by
  decide

/-- H-16. -/
theorem test_hWrCtrlNop : stateOf (exec (decode (.htx56 0x800000FFFFFFFE#56)) v3) = some v3 := by decide

/-- H-14, H-15: only ACCERR changes. -/
theorem test_hWrIllegal :
    stateOf (exec (decode (.htx56 0xA0000000000005#56)) v3) = some { v3 with accerr := true } ∧
    stateOf (exec (decode (.htx56 0x80000200000007#56)) v3) = some { v3 with accerr := true } := by decide

/-- H-1. -/
theorem test_hRdCtrl : stateOf (exec (.hRdCtrl 0#32) { v3 with q := 7#32 }) = some { v3 with q := 0#32 } := by decide

/-- H-21, and the STATUS of V-L1-6 after an illegal access. -/
theorem test_hRdStatus :
    (stateOf (exec (.hRdStatus 0#32) { s1 with runState := .error, trunc := true, bytePos := 1#3, abuf := 0xFF#32 })).map
      State.q = some 0x00000107#32 ∧
    (stateOf (exec (.hRdStatus 0#32) { v6 with accerr := true })).map State.q = some 0x00000527#32 := by decide

/-- R187's example. -/
theorem test_hRdClockLast : (stateOf (exec (.hRdClockLast 0#32) v3)).map State.q = some 0x01000000#32 := by decide

/-- V-L1-3's PAIR_COUNT. -/
theorem test_hRdPairCount : (stateOf (exec (.hRdPairCount 0#32) v3)).map State.q = some 1#32 := by decide

/-- P3's RSVD_COUNT. -/
theorem test_hRdRsvdCount : (stateOf (exec (.hRdRsvdCount 0#32) { s1 with rsvdCount := 1#32, pairCount := 4#32 })).map
    State.q = some 1#32 := by decide

/-- H-6, at the three widths of the vector. -/
theorem test_hRdConfig :
    (stateOf (exec (.hRdConfig 0#32) s0)).map State.q = some 0x000CA920#32 ∧
    (stateOf (exec (.hRdConfig 0#32) { s0 with config := width 16 })).map State.q = some 0x000CA910#32 ∧
    (stateOf (exec (.hRdConfig 0#32) { s0 with config := width 1 })).map State.q = some 0x000CA901#32 := by decide

/-- H-20 (a count, read in DONE), and H-8 (IDLE: 0 and ACCERR). -/
theorem test_hRdAmp :
    stateOf (exec (decode (.htx56 0x2010FF00000000#56)) v3) = some { v3 with q := 1#32 } ∧
    stateOf (exec (decode (.htx56 0x20000000000000#56)) s0) = some { s0 with accerr := true } := by decide

/-- V-L1-3's `RD 0x400400`, and H-9 (ACCUM: 0 and ACCERR). -/
theorem test_hRdTdc :
    stateOf (exec (decode (.htx56 0x40040000000000#56)) v3) = some { v3 with q := 1#32 } ∧
    (stateOf (exec (decode (.htx56 0x40000000000000#56)) s1)).map State.statusWord = some 0x00000021#32 := by decide

/-- H-7 (IDLE), and H-12 (DONE). -/
theorem test_hRdReserved :
    (stateOf (exec (decode (.htx56 0x00000600000000#56)) s0)).map State.statusWord = some 0x00000020#32 ∧
    stateOf (exec (decode (.htx56 0x48000000000000#56)) { v3 with q := 9#32 }) = some { v3 with q := 0#32, accerr := true } := by
  decide

/-! ## The step -/

/-- Z-1 and Z-3: RESET from DONE and inside a word gives S0. -/
theorem test_step_reset :
    stateOf (step (resetTurn v3)) = some s0 ∧ stateOf (step (resetTurn (inPair 3#3 0x030201#32))) = some s0 := by decide

/-- W-8: a transfer offered in IDLE is not accepted and stays offered. -/
theorem test_step_not_ready :
    stateOf (step (producerTurn 0x012#9 s0)) = some { s0 with streamOffers := [0x012#9] } := by decide

/-- A step in which the host's access is taken. -/
theorem test_step_host : stateOf (step (hostTurn 0x80000000000001#56 s0)) = some s1 := by decide

/-- A byte placed after reset is accepted by the next step. -/
theorem test_withFetchWord_stream : stateOf (step (s0.withFetchWord 16 0x0FF)) = some (inPair 1#3 0xFF#32) := by decide

/-- An event word placed after reset completes in the next step, and is counted (V-L1-3). -/
theorem test_withFetchWord_event :
    (stateOf (step (s0.withFetchWord 32 0x004000FF))).map (fun t =>
      (t.bytePos, t.abuf, t.amp.read (ampAddr 1#9 255#12), t.tdc.read (tdcAddr 1#9 0#10))) =
    some (4#3, 0#32, some 1#32, some 1#32) := by decide

/-- A host access placed after reset is performed in IDLE (H-6). -/
theorem test_withFetchWord_host :
    stateOf (step (s0.withFetchWord 56 0x00000500000000)) = some { s0 with q := 0x000CA920#32 } := by decide

/-! ## Witnesses: values that meet the hypotheses of each statement, each clause at a boundary of its range -/

theorem s1_cellsDefined : s1.cellsDefined := ⟨fun _ _ => rfl, fun _ _ => rfl⟩

theorem s1_cellsZero : s1.cellsZero := ⟨fun _ _ => rfl, fun _ _ => rfl⟩

/-- In ACCUM right after START, whatever is offered next, the invariants of R37 hold. -/
theorem inv_of_start (x : Stx9) : (producerTurn x s1).Inv where
  idleClear := fun h => nomatch h
  definedAfterStart := fun _ => s1_cellsDefined
  abufBelow := show (s1.abuf.toNat < 2 ^ (8 * (s1.bytePos.toNat % 4))) by decide
  doneOnBoundary := fun h => nomatch h
  errorInside := fun h => nomatch h
  truncIff := show (s1.trunc = true ↔ s1.runState = .error) by decide
  sums := fun _ _ _ => totals_eq_zero s1_cellsZero

theorem witness_DecodeOfEncodeIsTheInstruction :
    ([.sByte 0xFF#8, .sEos 0xFF#8, .eventWord 1#1 511#9 1023#10 4095#12, .clockWord 0xFFFFFFFF#32, .hStart 0x7FFFFFFF#31,
      .hWrCtrlNop 0x7FFFFFFF#31, .hWrIllegal 1#23 0#32, .hWrIllegal 0x7FFFFF#23 0#32, .hRdCtrl 1#32, .hRdStatus 1#32,
      .hRdClockLast 1#32, .hRdPairCount 1#32, .hRdRsvdCount 1#32, .hRdConfig 1#32, .hRdAmp 511#9 4095#12 0#32,
      .hRdTdc 511#9 1023#10 0#32, .hRdReserved 6#23 0#32, .hRdReserved 0x1FFFFF#23 0#32, .hRdReserved 0x480000#23 0#32,
      .hRdReserved 0x7FFFFF#23 0#32] : List Instr).all Instr.wellFormed = true := by decide

theorem witness_DecodeBytesRoundTrip :
    (Instr.hRdReserved 6#23 0#32).wellFormed = true ∧ ([] : List Byte).length ≠ Format.stx9.bytes ∧
    [0x00#8, 0x02#8].length = Format.stx9.bytes ∧ 2 ^ Format.stx9.width ≤ leNat [0x00#8, 0x02#8] := by decide

/-- H_START's value also matches H_WR_ILLEGAL's row. -/
theorem witness_HostDecodeIsTheMostSpecificRow :
    opcodeRow (.hWrIllegal 0 0) ∈ htxRows ∧ (opcodeRow (.hWrIllegal 0 0)).accepts 0x80000000000001#56 = true ∧
    opcodeRow (.hWrIllegal 0 0) ≠ opcodeRow (decode (.htx56 0x80000000000001#56)) ∧
    opcodeRow (.hStart 0) ∈ htxRows ∧ (opcodeRow (.hStart 0)).accepts 0x80000000000001#56 = true := by decide

theorem witness_StreamTransferDecode : (0x0FF#9).getLsbD 8 = false ∧ (0x100#9).getLsbD 8 = true := by decide

theorem witness_WindowAddressesNameTheCells :
    (0x200000 ≤ (0x200000#23).toNat ∧ (0x200000#23).toNat ≤ 0x3FFFFF) ∧
    (0x200000 ≤ (0x3FFFFF#23).toNat ∧ (0x3FFFFF#23).toNat ≤ 0x3FFFFF) ∧
    (0x400000 ≤ (0x400000#23).toNat ∧ (0x400000#23).toNat ≤ 0x47FFFF) ∧
    (0x400000 ≤ (0x47FFFF#23).toNat ∧ (0x47FFFF#23).toNat ≤ 0x47FFFF) ∧
    (6 ≤ (6#23).toNat ∧ (6#23).toNat ≤ 0x1FFFFF) ∧ (6 ≤ (0x1FFFFF#23).toNat ∧ (0x1FFFFF#23).toNat ≤ 0x1FFFFF) ∧
    0x480000 ≤ (0x480000#23).toNat ∧ 0x480000 ≤ (0x7FFFFF#23).toNat := by decide

theorem witness_StepRunsTheNextTransaction :
    ((hostTurn opStart s0).schedule = .host :: [] ∧ (hostTurn opStart s0).hostIssues = opStart :: []) ∧
    ((producerTurn opEos s1).schedule = .producer :: [] ∧ (producerTurn opEos s1).streamOffers = opEos :: [] ∧
      (producerTurn opEos s1).runState = .accum) ∧
    (({ s0 with schedule := [.host] } : State).schedule = .host :: [] ∧ s0.hostIssues = []) ∧
    (({ s0 with schedule := [.producer] } : State).schedule = .producer :: [] ∧ s0.streamOffers = []) ∧
    s0.schedule = [] := by decide

/-- W-10: the byte offered in IDLE, then START, then the byte's turn again. -/
theorem witness_TransfersAreAcceptedInAccumOnly :
    s0.runState ≠ .accum ∧ v3.runState ≠ .accum ∧ v6.runState ≠ .accum ∧
    ((producerTurn 0x012#9 s0).schedule = .producer :: [] ∧ (producerTurn 0x012#9 s0).runState ≠ .accum) ∧
    let s : State := { s0 with
      streamOffers := [0x012#9], hostIssues := [opStart], schedule := [.producer, .host, .producer] }
    s.runState ≠ .accum ∧ s.streamOffers = 0x012#9 :: [] ∧ (1#32).getLsbD 0 = true ∧
      s.hostIssues = opWr 0x000000#23 1#32 :: [] ∧ s.schedule = .producer :: .host :: .producer :: [] := by decide

theorem witness_StepKeepsIssueOrderAndConfig : step (hostTurn opStart s0) = .next s1 := rfl

theorem witness_IgnoredBitsHaveNoEffect :
    (htxWe 0x00000100000000#56 = 0#1 ∧ htxWe 0x000001FFFFFFFF#56 = 0#1 ∧
      htxAddr 0x00000100000000#56 = htxAddr 0x000001FFFFFFFF#56) ∧
    (htxWe 0x80000000000001#56 = 1#1 ∧ htxWe 0x800000FFFFFFFF#56 = 1#1 ∧ htxAddr 0x80000000000001#56 = 0#23 ∧
      htxAddr 0x800000FFFFFFFF#56 = 0#23 ∧ (0x80000000000001#56).getLsbD 0 = (0x800000FFFFFFFF#56).getLsbD 0) ∧
    (0x100#9).getLsbD 8 = true ∧ (0x1FF#9).getLsbD 8 = true ∧
    (hostTurn opStart s0).schedule = .host :: [] ∧ (producerTurn opEos s1).schedule = .producer :: [] ∧
    (producerTurn opEos s1).runState = .accum := by decide

theorem witness_ResetValues : s0 = State.reset ∧ State.resetWith (width 1) = State.resetWith (width 1) := ⟨rfl, rfl⟩

theorem witness_ResetTransaction :
    (resetTurn { v6 with streamOffers := [0x012#9] }).schedule = .resetSignal :: [] ∧
    (resetTurn { v6 with streamOffers := [0x012#9] }).streamOffers = 0x012#9 :: [] ∧ (1#32).getLsbD 0 = true := by decide

theorem witness_SByteInAccum :
    ((inPair 0#3 0#32).runState = .accum ∧ (inPair 0#3 0#32).bytePos ≠ 3#3 ∧ (inPair 0#3 0#32).bytePos ≠ 7#3) ∧
    ((inPair 6#3 0xFFFF#32).bytePos ≠ 3#3 ∧ (inPair 6#3 0xFFFF#32).bytePos ≠ 7#3) ∧
    ((inPair 3#3 0x030201#32).bytePos = 3#3 ∧
      (stateOf (exec (decode (.evt32 (0x04#8 ++ (inPair 3#3 0x030201#32).abuf.extractLsb' 0 24)))
        { inPair 3#3 0x030201#32 with abuf := 0#32 })).isSome = true) ∧
    (inPair 7#3 0x030201#32).bytePos = 7#3 ∧
      (stateOf (exec (decode (.clk32 (0x04#8 ++ (inPair 7#3 0x030201#32).abuf.extractLsb' 0 24)))
        { inPair 7#3 0x030201#32 with abuf := 0#32 })).isSome = true := by decide

theorem witness_SByteCompletes : s1.runState = .accum ∧ s1.cellsDefined := ⟨rfl, s1_cellsDefined⟩

theorem witness_FourBytesFormOneWord :
    ((inPair 0#3 0#32).runState = .accum ∧ (inPair 0#3 0#32).bytePos = 0#3 ∧
      (stateOf (exec (decode (.evt32 (0x04#8 ++ 0x03#8 ++ 0x02#8 ++ 0x01#8)))
        { inPair 0#3 0#32 with abuf := 0#32 })).isSome = true) ∧
    (inPair 4#3 0#32).runState = .accum ∧ (inPair 4#3 0#32).bytePos = 4#3 ∧
      (stateOf (exec (decode (.clk32 (0x04#8 ++ 0x03#8 ++ 0x02#8 ++ 0x01#8)))
        { inPair 4#3 0#32 with abuf := 0#32 })).isSome = true := by decide

theorem witness_EndOfStream :
    (s1.runState = .accum ∧ s1.bytePos = 0#3) ∧ ((inPair 1#3 1#32).runState = .accum ∧ (inPair 1#3 1#32).bytePos ≠ 0#3) ∧
    (inPair 7#3 1#32).bytePos ≠ 0#3 := by decide

theorem witness_EventWordEffect :
    (s1.amp.read (ampAddr 0#9 0#12) = some 0#32 ∧ s1.tdc.read (tdcAddr 0#9 0#10) = some 0#32) ∧
    ({ s1 with amp := oneCell (ampAddr 511#9 4095#12) 0xFFFFFFFF#32 } : State).amp.read (ampAddr 511#9 4095#12) =
      some 0xFFFFFFFF#32 ∧ s1.tdc.read (tdcAddr 511#9 1023#10) = some 0#32 ∧
    extract 0xFFFFFFFF#32 = ⟨1#1, 511#9, 1023#10, 4095#12⟩ := by decide

theorem witness_EventWordStopsOnUnspec :
    s0.amp.read (ampAddr 0#9 0#12) = none ∧
    ({ s0 with amp := Memory.zeroed } : State).tdc.read (tdcAddr 511#9 1023#10) = none := by decide

theorem witness_ReservedBitOnlyCounts :
    (stateOf (exec (decode (.evt32 (0x81400064#32 &&& 0x7FFFFFFF#32))) s1)).isSome = true := by decide

theorem witness_ClockBytesReachOnlyClockLast :
    ((inPair 4#3 0#32).runState = .accum ∧ 4 ≤ (inPair 4#3 0#32).bytePos.toNat ∧
      (stateOf (exec (.sByte 0x11#8) (inPair 4#3 0#32))).isSome = true) ∧
    4 ≤ (inPair 7#3 0#32).bytePos.toNat ∧ (stateOf (exec (.sByte 0x11#8) (inPair 7#3 0#32))).isSome = true := by decide

theorem witness_RepeatedEventsAccumulateExactly :
    s1.cellsDefined ∧ s1.amp.read (ampAddr 5#9 100#12) = some 0#32 ∧ s1.tdc.read (tdcAddr 5#9 0#10) = some 0#32 ∧
    (0#32).toNat ≤ 2 ^ s1.config.cw.bits - 1 := ⟨s1_cellsDefined, rfl, rfl, by decide⟩

/-- A step that is neither a START nor a RESET, and completes an event word. -/
theorem witness_CountsNeverDecrease :
    (∃ t, step (producerTurn 0x004#9 (inPair 3#3 0x030201#32)) = .next t) ∧
    ¬ (producerTurn 0x004#9 (inPair 3#3 0x030201#32)).takesStart ∧
    ¬ (producerTurn 0x004#9 (inPair 3#3 0x030201#32)).takesReset :=
  ⟨⟨_, rfl⟩, by simp [State.takesStart, State.takesAccess, producerTurn],
    by simp [State.takesReset, producerTurn]⟩

/-- A step that changes the tables: an accepted byte at BYTEPOS 3, a START, a RESET. -/
theorem witness_TablesChangeOnlyInTheAccumulator :
    (∃ t, step (producerTurn 0x004#9 (inPair 3#3 0x030201#32)) = .next t ∧ t.amp ≠ s1.amp) ∧
    (∃ t, step (hostTurn opStart v3) = .next t ∧ t.amp ≠ v3.amp) ∧
    ∃ t, step (resetTurn v3) = .next t ∧ t.tdc ≠ v3.tdc :=
  ⟨⟨_, rfl, by decide⟩, ⟨_, rfl, by decide⟩, ⟨_, rfl, by decide⟩⟩

/-- The empty run, and V-L1-3's run of one pair. -/
theorem witness_StreamOfPairsIsCounted :
    s1.runState = .accum ∧ s1.bytePos = 0#3 ∧ s1.cellsZero ∧ s1.pairCount = 0#32 ∧ s1.rsvdCount = 0#32 ∧
    (producerTurn opEos s1).streamOffers =
      ([] : List (Word × Word)).flatMap (fun p => opWord p.1 ++ opWord p.2) ++ opEos :: [] ∧
    (producerTurn opEos s1).schedule = List.replicate (8 * ([] : List (Word × Word)).length + 1) .producer ++ [] ∧
    let ps : List (Word × Word) := [(0x004000FF#32, 0x01000000#32)]
    ([0x0FF#9, 0x000#9, 0x040#9, 0x000#9, 0x000#9, 0x000#9, 0x000#9, 0x001#9, 0x100#9, 0x055#9] : List Stx9) =
      ps.flatMap (fun p => opWord p.1 ++ opWord p.2) ++ opEos :: [0x055#9] ∧
    [Turn.producer, .producer, .producer, .producer, .producer, .producer, .producer, .producer, .producer, .host] =
      List.replicate (8 * ps.length + 1) .producer ++ [.host] := by
  exact ⟨rfl, rfl, s1_cellsZero, rfl, rfl, rfl, rfl, by decide, rfl⟩

theorem witness_StartBeginsANewRun :
    htxWe 0x800000FFFFFFFF#56 = 1#1 ∧ htxAddr 0x800000FFFFFFFF#56 = 0#23 ∧
    (htxData 0x800000FFFFFFFF#56).getLsbD 0 = true := by decide

theorem witness_OtherHostWrites :
    (htxWe 0x800000FFFFFFFE#56 = 1#1 ∧ htxAddr 0x800000FFFFFFFE#56 = 0#23 ∧
      (htxData 0x800000FFFFFFFE#56).getLsbD 0 = false) ∧
    (htxWe 0x80000100000000#56 = 1#1 ∧ htxAddr 0x80000100000000#56 ≠ 0#23) ∧
    htxWe 0xFFFFFF00000001#56 = 1#1 ∧ htxAddr 0xFFFFFF00000001#56 ≠ 0#23 := by decide

theorem witness_RegisterReads :
    htxWe 0x00000000000000#56 = 0#1 ∧ htxAddr 0x00000000000000#56 = 0#23 ∧
    htxWe 0x00000200000000#56 = 0#1 ∧ htxAddr 0x00000200000000#56 = 2#23 ∧
    htxWe 0x00000300000000#56 = 0#1 ∧ htxAddr 0x00000300000000#56 = 3#23 ∧
    htxWe 0x00000400000000#56 = 0#1 ∧ htxAddr 0x00000400000000#56 = 4#23 := by decide

theorem witness_StatusReadFields : htxWe 0x000001FFFFFFFF#56 = 0#1 ∧ htxAddr 0x000001FFFFFFFF#56 = 1#23 := by decide

theorem witness_ConfigReadFields :
    s0.config.cw.bits = 32 ∧ htxWe 0x00000500000000#56 = 0#1 ∧ htxAddr 0x00000500000000#56 = 5#23 := by decide

theorem witness_TableReads :
    v3.runState = .done ∧ v3.amp.read (ampAddr 511#9 4095#12) = some 0#32 ∧ v3.amp.read (ampAddr 1#9 255#12) = some 1#32 ∧
    v3.tdc.read (tdcAddr 511#9 1023#10) = some 0#32 ∧ s0.runState ≠ .done ∧ s1.runState ≠ .done ∧ v6.runState ≠ .done ∧
    (htxWe 0x3FFFFF00000000#56 = 0#1 ∧ (htxAddr 0x3FFFFF00000000#56).extractLsb' 21 2 = 0b01#2) ∧
    (htxWe 0x20000000000000#56 = 0#1 ∧ (htxAddr 0x20000000000000#56).extractLsb' 21 2 = 0b01#2) ∧
    (htxWe 0x47FFFF00000000#56 = 0#1 ∧ (htxAddr 0x47FFFF00000000#56).extractLsb' 19 4 = 0b1000#4) ∧
    htxWe 0x40000000000000#56 = 0#1 ∧ (htxAddr 0x40000000000000#56).extractLsb' 19 4 = 0b1000#4 := by decide

/-- A state that no run reaches: DONE with its cells UNSPEC. -/
theorem witness_TableReadStopsOnUnspec :
    ({ s0 with runState := .done } : State).runState = .done ∧ s0.amp.read (ampAddr 0#9 0#12) = none ∧
    s0.tdc.read (tdcAddr 511#9 1023#10) = none := by decide

theorem witness_ReservedRead :
    (6 ≤ (6#23).toNat ∧ (6#23).toNat ≤ 0x1FFFFF) ∧ (6 ≤ (0x1FFFFF#23).toNat ∧ (0x1FFFFF#23).toNat ≤ 0x1FFFFF) ∧
    0x480000 ≤ (0x480000#23).toNat ∧ 0x480000 ≤ (0x7FFFFF#23).toNat := by decide

/-- Each kind of illegal access, at the edges of its addresses; and legal ones that meet the second clause. -/
theorem witness_IllegalAccessesAreThoseListed :
    illegalAccess (opWr 1#23 0#32) s0 = true ∧ illegalAccess (opWr 0x7FFFFF#23 0#32) v3 = true ∧
    illegalAccess (opRd 6#23) v3 = true ∧ illegalAccess (opRd 0x1FFFFF#23) v3 = true ∧
    illegalAccess (opRd 0x480000#23) v3 = true ∧ illegalAccess (opRd 0x7FFFFF#23) v3 = true ∧
    illegalAccess (opRd 0x200000#23) s1 = true ∧ illegalAccess (opRd 0x47FFFF#23) v6 = true ∧
    illegalAccess (opRd 0x3FFFFF#23) v3 = false ∧
    (stateOf (exec (decode (.htx56 (opRd 0x3FFFFF#23))) { v3 with accerr := true })).map State.accerr = some true := by decide

theorem witness_LegalReadIsIdempotent :
    htxWe (opRdAmp 1#9 255#12) = 0#1 ∧ illegalAccess (opRdAmp 1#9 255#12) v3 = false ∧
    (stateOf (exec (decode (.htx56 (opRdAmp 1#9 255#12))) v3)).isSome = true := by decide

theorem witness_HostAccessesDoNotDisturbTheRun :
    (isHostOp (.hRdStatus 0#32) = true ∧ (∀ dc, Instr.hRdStatus 0#32 ≠ .hStart dc) ∧
      exec (.hRdStatus 0#32) s1 = .next (s1.reply 1#32)) ∧
    isHostOp (.sByte 1#8) = false ∧ exec (.sByte 1#8) s1 = .next (inPair 1#3 1#32) :=
  ⟨⟨rfl, fun _ h => Instr.noConfusion h, rfl⟩, rfl, rfl⟩

/-- In DONE, a table read and a byte that is not accepted, then a turn with nothing offered. -/
theorem witness_TablesStayThroughReadout :
    let s : State := { v3 with
      schedule := [.host, .producer, .host], hostIssues := [opRdAmp 1#9 255#12], streamOffers := [0x012#9] }
    s.runState = .done ∧ (∀ x ∈ s.schedule, x ≠ .resetSignal) ∧
      (∀ h ∈ s.hostIssues, ¬ (htxWe h = 1#1 ∧ htxAddr h = 0#23 ∧ h.getLsbD 0 = true)) ∧
      ∃ t, Host.Core.run Sys2Proof.core 3 s = .next t :=
  ⟨rfl, by decide, by simp [htxWe, opRdAmp, opRd, packHtx56], _, rfl⟩

/-- No operation between, and bytes, host accesses and another START between. -/
theorem witness_StartEndsTheReadout :
    (∀ i ∈ ([] : List Instr), ∀ x, i ≠ .sEos x) ∧
    ∀ i ∈ [Instr.sByte 0x11#8, .hRdStatus 0#32, .hWrIllegal 1#23 0#32, .hStart 0#31], ∀ x, i ≠ .sEos x :=
  ⟨by simp, by simp⟩

theorem witness_OnlyHostReadsWriteQ : ∃ t, step (hostTurn (opRdAmp 1#9 255#12) v3) = .next t ∧ t.q ≠ v3.q :=
  ⟨_, rfl, by decide⟩

theorem witness_FlagsAreSticky :
    let s : State := producerTurn 0x001#9 { v6 with sat := true, cntsat := true, accerr := true }
    (∃ t, step s = .next t) ∧ ¬ s.takesStart ∧ ¬ s.takesReset ∧ s.trunc = true ∧ s.sat = true ∧ s.cntsat = true ∧
      s.accerr = true :=
  ⟨⟨_, rfl⟩, by simp [State.takesStart, State.takesAccess, producerTurn], by simp [State.takesReset, producerTurn],
    rfl, rfl, rfl, rfl⟩

/-- Each of the ways STATE moves. -/
theorem witness_RunStateMoves :
    (∃ t, step (resetTurn v3) = .next t ∧ t.runState ≠ v3.runState) ∧
    (∃ t, step (hostTurn opStart v3) = .next t ∧ t.runState ≠ v3.runState) ∧
    (∃ t, step (producerTurn opEos s1) = .next t ∧ t.runState ≠ s1.runState) ∧
    ∃ t, step (producerTurn opEos (inPair 4#3 0#32)) = .next t ∧ t.runState ≠ s1.runState :=
  ⟨⟨_, rfl, by decide⟩, ⟨_, rfl, by decide⟩, ⟨_, rfl, by decide⟩, ⟨_, rfl, by decide⟩⟩

theorem witness_RaisedEventShowsAtItsCode : 2 ≤ 31 ∧ 31 ≠ ErrorEvent.accerr.code ∧ 2 ≠ ErrorEvent.accerr.code := by decide

theorem witness_StepKeepsTheInvariants : (producerTurn 0x012#9 s1).Inv ∧ ∃ t, step (producerTurn 0x012#9 s1) = .next t :=
  ⟨inv_of_start _, _, rfl⟩

/-- A table with a cell at CW bits' largest value and at the last RAM address. -/
theorem witness_StepKeepsTablesCanonical :
    let s : State := producerTurn 0x012#9 { s1 with amp := oneCell 2097151 0xFFFFFFFF#32 }
    s.TablesCanonical ∧ ∃ t, step s = .next t :=
  ⟨⟨by decide, by decide, by decide, by decide⟩, _, rfl⟩

theorem witness_NoStepStops : (producerTurn opEos s1).Inv := inv_of_start _

end Sys2Proof.Tests
end

section
/-! The statements of spec/00_scope.md: what the next transaction is (R11), and the form and bound of the tables' cells
(R6). Before them, the equations of a step, one per shape of the schedule, and what an operation can do to the tables. -/

namespace Sys2Proof.Machine

/-! ## The equations of a step -/

/-- The stream port accepts a transfer exactly in ACCUM (R102). -/
theorem State.streamReady_iff (s : State) : s.streamReady = true ↔ s.runState = .accum := by
  simp [State.streamReady]

theorem step_of_schedule_nil {s : State} (hs : s.schedule = []) : step s = .next s := by
  simp [step, State.fetch, hs]

theorem step_of_host_nil {s : State} {turns : List Turn} (hs : s.schedule = .host :: turns) (ho : s.hostIssues = []) :
    step s = .next { s with schedule := turns } := by
  simp [step, State.fetch, hs, ho]

theorem step_of_host_cons {s : State} {turns : List Turn} {h : Htx56} {rest : List Htx56}
    (hs : s.schedule = .host :: turns) (ho : s.hostIssues = h :: rest) :
    step s = exec (decode (.htx56 h)) { s with schedule := turns, hostIssues := rest } := by
  simp [step, State.fetch, hs, ho]

theorem step_of_producer_nil {s : State} {turns : List Turn} (hs : s.schedule = .producer :: turns)
    (ho : s.streamOffers = []) : step s = .next { s with schedule := turns } := by
  simp [step, State.fetch, hs, ho]

/-- In ACCUM the stream port is ready, so the offered transfer is taken off (R102). -/
theorem step_of_producer_cons {s : State} {turns : List Turn} {x : Stx9} {rest : List Stx9}
    (hs : s.schedule = .producer :: turns) (ho : s.streamOffers = x :: rest) (hr : s.runState = .accum) :
    step s = exec (decode (.stx9 x)) { s with schedule := turns, streamOffers := rest } := by
  simp [step, State.fetch, hs, ho, s.streamReady_iff.mpr hr]

/-- Settles O10: one equation of a step for each clause. -/
theorem stepRunsTheNextTransaction : Obligations.StepRunsTheNextTransaction :=
  ⟨fun _ _ _ _ => step_of_host_cons, fun _ _ _ _ => step_of_producer_cons, fun _ _ => step_of_host_nil,
    fun _ _ => step_of_producer_nil, fun _ => step_of_schedule_nil⟩

/-! ## What an operation can do to the tables -/

theorem exec_sByte (d : Byte) (s : State) :
    exec (.sByte d) s = if s.streamReady then s.acceptByte d else .next s := rfl

theorem exec_sEos (dc : Byte) (s : State) :
    exec (.sEos dc) s = if s.streamReady then .next s.endStream else .next s := rfl

/-- A table read answers the cell in DONE, and is an illegal read otherwise (R191, R192). -/
theorem State.tableRead_eq_next {cell : Option Word} {s t : State} :
    s.tableRead cell = .next t ↔
      (s.runState = .done ∧ ∃ v, cell = some v ∧ t = s.reply v) ∨ (s.runState ≠ .done ∧ t = s.illegalRead) := by
  unfold State.tableRead
  by_cases hd : s.runState = .done
  · cases cell <;> simp [hd, eq_comm]
  · simp [hd, eq_comm]

/-- A table read leaves the configuration and both tables as they are. -/
theorem State.tableRead_frame {cell : Option Word} {s t : State} (h : s.tableRead cell = .next t) :
    t.config = s.config ∧ t.amp = s.amp ∧ t.tdc = s.tdc := by
  obtain ⟨-, v, -, rfl⟩ | ⟨-, rfl⟩ := State.tableRead_eq_next.mp h
  · exact ⟨rfl, rfl, rfl⟩
  · exact ⟨rfl, rfl, rfl⟩

/-- An end of stream leaves the configuration and both tables as they are (R106). -/
theorem State.endStream_frame (s : State) :
    s.endStream.config = s.config ∧ s.endStream.amp = s.amp ∧ s.endStream.tdc = s.tdc := by
  unfold State.endStream
  split
  · exact ⟨rfl, rfl, rfl⟩
  · exact ⟨rfl, rfl, rfl⟩

/-- An operation counts an event: it is EVENT_WORD itself, or the S_BYTE that completes the event word (R103). -/
def countsEvent (i : Instr) (s : State) : Prop :=
  (∃ r c t e, i = .eventWord r c t e) ∨ (∃ d, i = .sByte d ∧ s.runState = .accum ∧ s.bytePos = 3#3)

/-- What an operation can do to the configuration and the tables: leave all of them, zero both tables (a START), or
count one event in two cells that hold a value. -/
theorem exec_tables_cases {i : Instr} {s t : State} (h : exec i s = .next t) :
    (t.config = s.config ∧ t.amp = s.amp ∧ t.tdc = s.tdc) ∨
    ((∃ dc, i = .hStart dc) ∧ t = s.start) ∨
    (countsEvent i s ∧ ∃ f u v, s.amp.read (ampAddr f.channel f.energy) = some u ∧
      s.tdc.read (tdcAddr f.channel f.time) = some v ∧ t.config = s.config ∧ t.amp = (s.afterEvent f u v).amp ∧
      t.tdc = (s.afterEvent f u v).tdc) := by
  cases i with
  | sByte d =>
    rw [exec_sByte] at h
    split at h
    · next hready =>
      have hr := s.streamReady_iff.mp hready
      obtain ⟨h3, u, v, hu, hv, rfl⟩ | ⟨-, rfl⟩ | ⟨-, -, rfl⟩ := State.acceptByte_cases h
      · exact .inr (.inr ⟨.inr ⟨d, rfl, hr, h3⟩, _, u, v, hu, hv, rfl, rfl, rfl⟩)
      · exact .inl (by simp [State.clockAction_eq])
      · exact .inl ⟨rfl, rfl, rfl⟩
    · cases h; exact .inl ⟨rfl, rfl, rfl⟩
  | sEos dc =>
    rw [exec_sEos] at h
    split at h
    · cases h; exact .inl s.endStream_frame
    · cases h; exact .inl ⟨rfl, rfl, rfl⟩
  | eventWord r c b e =>
    obtain ⟨u, v, hu, hv, rfl⟩ := State.eventAction_eq_next.mp h
    exact .inr (.inr ⟨.inl ⟨r, c, b, e, rfl⟩, _, u, v, hu, hv, rfl, rfl, rfl⟩)
  | clockWord w => cases h; exact .inl (by simp [State.clockAction_eq])
  | hStart dc => cases h; exact .inr (.inl ⟨⟨dc, rfl⟩, rfl⟩)
  | hRdAmp c e dc => exact .inl (State.tableRead_frame h)
  | hRdTdc c b dc => exact .inl (State.tableRead_frame h)
  | hWrCtrlNop | hWrIllegal | hRdCtrl | hRdStatus | hRdClockLast | hRdPairCount | hRdRsvdCount | hRdConfig
  | hRdReserved => cases h; exact .inl ⟨rfl, rfl, rfl⟩

/-! ## The canonical form -/

/-- The invariant speaks of the configuration and the tables only. -/
theorem State.TablesCanonical.of_eq {s t : State} (hs : s.TablesCanonical) (hc : t.config = s.config)
    (ha : t.amp = s.amp) (ht : t.tdc = s.tdc) : t.TablesCanonical := by
  obtain ⟨hawf, htwf, hafits, htfits⟩ := hs
  exact ⟨ha ▸ hawf, ht ▸ htwf, ha ▸ hc ▸ hafits, ht ▸ hc ▸ htfits⟩

/-- A memory that lists no cell lists none that is too large. -/
theorem Memory.fits_of_cells_nil (cw : CellWidth) {m : Memory} (hm : m.cells = []) : m.fits cw := by
  simp [Memory.fits, hm]

theorem State.start_tablesCanonical (s : State) : s.start.TablesCanonical :=
  ⟨Memory.wf_zeroed _, Memory.wf_zeroed _, Memory.fits_of_cells_nil _ rfl, Memory.fits_of_cells_nil _ rfl⟩

theorem State.takeReset_tablesCanonical (s : State) : s.takeReset.TablesCanonical :=
  ⟨Memory.wf_unspecified _, Memory.wf_unspecified _, Memory.fits_of_cells_nil _ rfl, Memory.fits_of_cells_nil _ rfl⟩

/-- Counting an event writes inside both RAMs, and its saturating increment stays within CW bits (R10, R154, R155). -/
theorem State.TablesCanonical.afterEvent {s : State} (hs : s.TablesCanonical) {f : EventFields} {u v : Word}
    (hu : s.amp.read (ampAddr f.channel f.energy) = some u) (hv : s.tdc.read (tdcAddr f.channel f.time) = some v) :
    (s.afterEvent f u v).TablesCanonical where
  ampWf := Memory.wf_write hs.ampWf (ampAddr_lt _ _) _
  tdcWf := Memory.wf_write hs.tdcWf (tdcAddr_lt _ _) _
  ampFits := Memory.fits_write hs.ampFits _ (satInc_le _ (Memory.read_le hs.ampFits hu))
  tdcFits := Memory.fits_write hs.tdcFits _ (satInc_le _ (Memory.read_le hs.tdcFits hv))

theorem exec_keeps_tablesCanonical {i : Instr} {s t : State} (h : exec i s = .next t) (hs : s.TablesCanonical) :
    t.TablesCanonical := by
  obtain ⟨hc, ha, ht⟩ | ⟨-, rfl⟩ | ⟨-, f, u, v, hu, hv, hc, ha, ht⟩ := exec_tables_cases h
  · exact hs.of_eq hc ha ht
  · exact s.start_tablesCanonical
  · exact (hs.afterEvent hu hv).of_eq hc ha ht

/-- Settles O50: a step stands still, takes RESET, or runs one operation on the state with its turn taken off. -/
theorem stepKeepsTablesCanonical : Obligations.StepKeepsTablesCanonical := by
  intro s t hs h
  obtain ⟨-, rfl⟩ | ⟨ts, -, rfl⟩ | ⟨ts, -, -, rfl⟩ | ⟨ts, -, -, rfl⟩ | ⟨ts, x, xs, -, -, -, h⟩ |
    ⟨ts, x, xs, -, -, -, h⟩ | ⟨ts, a, as, -, -, h⟩ := step_cases h
  · exact hs
  · exact State.takeReset_tablesCanonical _
  · exact hs.of_eq rfl rfl rfl
  · exact hs.of_eq rfl rfl rfl
  · exact exec_keeps_tablesCanonical h (hs.of_eq rfl rfl rfl)
  · exact exec_keeps_tablesCanonical h (hs.of_eq rfl rfl rfl)
  · exact exec_keeps_tablesCanonical h (hs.of_eq rfl rfl rfl)

end Sys2Proof.Machine
end

section
/-! What one step can do to the block, said once for every kind of transaction: it stands still or answers the host, takes
a START or a RESET, or accepts a transfer of the stream. The statements of spec/10_state.md below rest on it. -/

namespace Sys2Proof.Machine

/-! ## Decoding a transaction of each port -/

/-- A transfer with bit 8 clear is the transfer of its data byte (R83). -/
theorem eq_opByte_of_eos_clear {x : Stx9} (hx : x.getLsbD 8 = false) : x = opByte (x.extractLsb' 0 8) := by
  ext i hi
  by_cases h8 : i = 8
  · subst h8
    simpa [opByte, packStx9] using hx
  · simp [opByte, packStx9, show i < 8 by omega, hi]

theorem extractLsb'_one_eq_one_iff {w : Nat} (x : BitVec w) (k : Nat) :
    x.extractLsb' k 1 = 1#1 ↔ x.getLsbD k = true := by
  rw [BitVec.eq_of_getLsbD_eq_iff]
  simp

theorem decode_stx9_of_eos {x : Stx9} (hx : x.getLsbD 8 = true) : decode (.stx9 x) = .sEos (x.extractLsb' 0 8) :=
  if_pos ((extractLsb'_one_eq_one_iff x 8).mpr hx)

/-- A stream transfer is an end of stream or one byte (R83, R86). -/
theorem decode_stx9_cases (x : Stx9) :
    (x.getLsbD 8 = true ∧ decode (.stx9 x) = .sEos (x.extractLsb' 0 8)) ∨
    (x = opByte (x.extractLsb' 0 8) ∧ decode (.stx9 x) = .sByte (x.extractLsb' 0 8)) := by
  cases hx : x.getLsbD 8 with
  | true => exact .inl ⟨rfl, decode_stx9_of_eos hx⟩
  | false => exact .inr ⟨eq_opByte_of_eos_clear hx, if_neg (by rw [extractLsb'_one_eq_one_iff, hx]; decide)⟩

/-- The host port's decoder gives host operations only (R87). -/
theorem isHostOp_decode_htx56 (h : Htx56) : isHostOp (decode (.htx56 h)) = true := by
  simp only [decode, decodeHtx56, decodeHostWrite, decodeHostRead]
  split_ifs <;> rfl

theorem decodeHostRead_ne_hStart (a : HostAddr) (d : Word) (dc : BitVec 31) : decodeHostRead a d ≠ .hStart dc := by
  unfold decodeHostRead
  split_ifs <;> nofun

/-- Bit 0 of a host transaction is bit 0 of its data (R84). -/
theorem htxData_getLsbD_zero (h : Htx56) : (htxData h).getLsbD 0 = h.getLsbD 0 := by
  simp [htxData]

/-- A START is a write of 1 to CTRL bit 0 (R87). -/
theorem fields_of_decode_eq_hStart {h : Htx56} {dc : BitVec 31} (hd : decode (.htx56 h) = .hStart dc) :
    htxWe h = 1#1 ∧ htxAddr h = 0x000000#23 ∧ h.getLsbD 0 = true := by
  simp only [decode, decodeHtx56, decodeHostWrite] at hd
  split_ifs at hd with hwe haddr hbit
  · rw [extractLsb'_one_eq_one_iff, htxData_getLsbD_zero] at hbit
    exact ⟨hwe, haddr, hbit⟩
  · exact absurd hd (decodeHostRead_ne_hStart _ _ _)

/-! ## Host operations -/

theorem State.raiseIf_accerr_eq (b : Bool) (s : State) :
    State.raiseIf b .accerr s = { s with accerr := s.accerr || b } := by
  cases b <;> simp [State.raiseIf, State.raise]

/-- A table read answers `q`, and may be an illegal access (R191, R192). -/
theorem State.tableRead_answers {cell : Option Word} {s t : State} (h : s.tableRead cell = .next t) :
    ∃ v b, t = State.raiseIf b .accerr (s.reply v) := by
  obtain ⟨-, v, -, rfl⟩ | ⟨-, rfl⟩ := State.tableRead_eq_next.mp h
  · exact ⟨v, false, rfl⟩
  · exact ⟨0#32, true, rfl⟩

/-- What a host operation can do: START, or write `q` and possibly raise ACCERR (R180 to R193). -/
theorem exec_hostOp_cases {i : Instr} {s t : State} (hi : isHostOp i = true) (h : exec i s = .next t) :
    ((∃ dc, i = .hStart dc) ∧ t = s.start) ∨ ∃ v b, t = State.raiseIf b .accerr (s.reply v) := by
  cases i with
  | sByte | sEos | eventWord | clockWord => cases hi
  | hStart dc => cases h; exact .inl ⟨⟨dc, rfl⟩, rfl⟩
  | hWrCtrlNop dc => cases h; exact .inr ⟨s.q, false, rfl⟩
  | hWrIllegal a d => cases h; exact .inr ⟨s.q, true, rfl⟩
  | hRdCtrl | hRdStatus | hRdClockLast | hRdPairCount | hRdRsvdCount | hRdConfig => cases h; exact .inr ⟨_, false, rfl⟩
  | hRdAmp | hRdTdc => exact .inr (State.tableRead_answers h)
  | hRdReserved a dc => cases h; exact .inr ⟨0#32, true, rfl⟩

/-! ## Stream operations -/

/-- Outside ACCUM a stream operation is not accepted (R102). -/
theorem exec_stx9_of_not_accum {s : State} (hr : s.runState ≠ .accum) (x : Stx9) :
    exec (decode (.stx9 x)) s = .next s := by
  have hready : ¬ s.streamReady = true := mt s.streamReady_iff.mp hr
  obtain ⟨-, hx⟩ | ⟨-, hx⟩ := decode_stx9_cases x <;> rw [hx]
  · exact if_neg hready
  · exact if_neg hready

/-- In ACCUM a stream transfer ends the stream or is accepted as a byte (R101, R106). -/
theorem exec_stx9_of_accum {s : State} (hr : s.runState = .accum) (x : Stx9) :
    (x.getLsbD 8 = true ∧ exec (decode (.stx9 x)) s = .next s.endStream) ∨
    (x = opByte (x.extractLsb' 0 8) ∧ exec (decode (.stx9 x)) s = s.acceptByte (x.extractLsb' 0 8)) := by
  have hready := s.streamReady_iff.mpr hr
  obtain ⟨h8, hx⟩ | ⟨hb, hx⟩ := decode_stx9_cases x <;> rw [hx]
  · exact .inl ⟨h8, if_pos hready⟩
  · exact .inr ⟨hb, if_pos hready⟩

/-- An end of stream leaves in DONE on a pair boundary, and takes TRUNC elsewhere (R106). -/
theorem State.endStream_cases (s : State) :
    (s.bytePos = 0#3 ∧ s.endStream = { s with runState := .done }) ∨
    (s.bytePos ≠ 0#3 ∧ s.endStream = s.raise .trunc) := by
  by_cases h0 : s.bytePos = 0#3
  · exact .inl ⟨h0, if_pos h0⟩
  · exact .inr ⟨h0, if_neg h0⟩

/-- The byte at BYTEPOS 3 completes the event word (R103). -/
theorem State.acceptByte_event {s : State} (h3 : s.bytePos = 3#3) (d : Byte) :
    s.acceptByte d =
      andThen (State.eventAction (extract (s.abufWith d)) { s with abuf := 0#32 }) fun s1 => .next s1.advance :=
  if_pos h3

/-- The byte at BYTEPOS 7 completes the clock word (R104). -/
theorem State.acceptByte_clock {s : State} (h7 : s.bytePos = 7#3) (d : Byte) :
    s.acceptByte d = .next (State.clockAction (s.abufWith d) { s with abuf := 0#32 }).advance := by
  simp [State.acceptByte, h7]

/-- Every other byte is stored in its lane (R101). -/
theorem State.acceptByte_store {s : State} (h3 : s.bytePos ≠ 3#3) (h7 : s.bytePos ≠ 7#3) (d : Byte) :
    s.acceptByte d = .next { s with abuf := s.abufWith d }.advance := by
  simp [State.acceptByte, h3, h7]

/-- An accepted byte leaves STATE, TRUNC and ACCERR as they are, and clears neither SAT nor CNTSAT (R101, R153, R157). -/
theorem State.acceptByte_flags {d : Byte} {s t : State} (h : s.acceptByte d = .next t) :
    t.runState = s.runState ∧ t.trunc = s.trunc ∧ t.accerr = s.accerr ∧ (s.sat = true → t.sat = true) ∧
      (s.cntsat = true → t.cntsat = true) := by
  obtain ⟨-, u, v, -, -, rfl⟩ | ⟨-, rfl⟩ | ⟨-, -, rfl⟩ := State.acceptByte_cases h
  · exact ⟨rfl, rfl, rfl, fun hsat => by simp [State.afterEvent, hsat], fun hcnt => by simp [State.afterEvent, hcnt]⟩
  · rw [State.clockAction_eq]
    exact ⟨rfl, rfl, rfl, id, fun hcnt => by simp [hcnt]⟩
  · exact ⟨rfl, rfl, rfl, id, id⟩

/-- Only the byte that completes the event word reaches the tables (R103). -/
theorem State.acceptByte_tables {d : Byte} {s t : State} (h : s.acceptByte d = .next t) (h3 : s.bytePos ≠ 3#3) :
    t.amp = s.amp ∧ t.tdc = s.tdc := by
  obtain ⟨h3', -⟩ | ⟨-, rfl⟩ | ⟨-, -, rfl⟩ := State.acceptByte_cases h
  · exact absurd h3' h3
  · rw [State.clockAction_eq]
    exact ⟨rfl, rfl⟩
  · exact ⟨rfl, rfl⟩

/-! ## The step -/

/-- `s` with other transactions pending on its ports; no state of the block changes. -/
def State.withPorts (s : State) (offers : List Stx9) (issues : List Htx56) (turns : List Turn) : State :=
  { s with streamOffers := offers, hostIssues := issues, schedule := turns }

/-- What one step can do, up to the lists of pending transactions: RESET, START, answer the host (or stand still),
accept a byte, or end the stream. -/
theorem step_effect_cases {s t : State} (h : step s = .next t) :
    ∃ offers issues turns,
      (s.takesReset ∧ t = (s.withPorts offers issues turns).takeReset) ∨
      (s.takesStart ∧ t = (s.withPorts offers issues turns).start) ∨
      (∃ v b, t = State.raiseIf b .accerr ((s.withPorts offers issues turns).reply v)) ∨
      (∃ d, s.acceptsTransfer (opByte d) ∧ (s.withPorts offers issues turns).acceptByte d = .next t) ∨
      (∃ x, s.acceptsTransfer x ∧ x.getLsbD 8 = true ∧ t = (s.withPorts offers issues turns).endStream) := by
  obtain ⟨-, rfl⟩ | ⟨ts, hs, rfl⟩ | ⟨ts, -, -, rfl⟩ | ⟨ts, -, -, rfl⟩ | ⟨ts, x, xs, -, -, hr, h⟩ |
    ⟨ts, x, xs, hs, ho, hr, h⟩ | ⟨ts, a, as, hs, ho, h⟩ := step_cases h
  · exact ⟨t.streamOffers, t.hostIssues, t.schedule, .inr (.inr (.inl ⟨t.q, false, rfl⟩))⟩
  · exact ⟨s.streamOffers, s.hostIssues, ts, .inl ⟨by simp [State.takesReset, hs], rfl⟩⟩
  · exact ⟨s.streamOffers, s.hostIssues, ts, .inr (.inr (.inl ⟨s.q, false, rfl⟩))⟩
  · exact ⟨s.streamOffers, s.hostIssues, ts, .inr (.inr (.inl ⟨s.q, false, rfl⟩))⟩
  · obtain rfl : { s with schedule := ts } = t :=
      Host.Outcome.next.inj ((exec_stx9_of_not_accum (s := { s with schedule := ts }) hr x).symm.trans h)
    exact ⟨s.streamOffers, s.hostIssues, ts, .inr (.inr (.inl ⟨s.q, false, rfl⟩))⟩
  · have hacc : s.acceptsTransfer x := ⟨hr, by simp [hs], by simp [ho]⟩
    refine ⟨xs, s.hostIssues, ts, .inr (.inr (.inr ?_))⟩
    obtain ⟨h8, hx⟩ | ⟨hb, hx⟩ := exec_stx9_of_accum (s := { s with schedule := ts, streamOffers := xs }) hr x
    · rw [hx] at h
      cases h
      exact .inr ⟨x, hacc, h8, rfl⟩
    · exact .inl ⟨_, hb ▸ hacc, hx ▸ h⟩
  · refine ⟨s.streamOffers, as, ts, .inr ?_⟩
    obtain ⟨⟨dc, hdc⟩, rfl⟩ | ⟨v, b, rfl⟩ := exec_hostOp_cases (isHostOp_decode_htx56 a) h
    · exact .inl ⟨⟨a, ⟨by simp [hs], by simp [ho]⟩, fields_of_decode_eq_hStart hdc⟩, rfl⟩
    · exact .inr (.inl ⟨v, b, rfl⟩)

/-! ## What moves and what stays in a step -/

/-- Settles O28: of the ways a step can go, only RESET, START and the byte at BYTEPOS 3 reach a table. -/
theorem tablesChangeOnlyInTheAccumulator : Obligations.TablesChangeOnlyInTheAccumulator := by
  intro s t h hne
  obtain ⟨os, is, ts, ⟨hreset, -⟩ | ⟨hstart, -⟩ | ⟨v, b, rfl⟩ | ⟨d, hacc, hb⟩ | ⟨x, -, -, rfl⟩⟩ := step_effect_cases h
  · exact .inr (.inl hreset)
  · exact .inl hstart
  · simp [State.raiseIf_accerr_eq, State.withPorts] at hne
  · refine .inr (.inr ⟨?_, d, hacc⟩)
    by_contra h3
    obtain ⟨ha, ht⟩ := State.acceptByte_tables hb h3
    exact hne.elim (· ha) (· ht)
  · obtain ⟨-, ha, ht⟩ := (s.withPorts os is ts).endStream_frame
    exact (hne.elim (· ha) (· ht)).elim

/-- Settles O45: a host access and an end of stream only raise flags, and so does a byte (`acceptByte_flags`). -/
theorem flagsAreSticky : Obligations.FlagsAreSticky := by
  intro s t h hstart hreset
  obtain ⟨os, is, ts, ⟨hr, -⟩ | ⟨hs, -⟩ | ⟨v, b, rfl⟩ | ⟨d, -, hb⟩ | ⟨x, -, -, rfl⟩⟩ := step_effect_cases h
  · exact absurd hr hreset
  · exact absurd hs hstart
  · rw [State.raiseIf_accerr_eq]
    exact ⟨id, id, id, fun hacc => by simp [State.withPorts, hacc]⟩
  · obtain ⟨-, htrunc, haccerr, hsat, hcntsat⟩ := State.acceptByte_flags hb
    exact ⟨htrunc.trans, hsat, hcntsat, haccerr.trans⟩
  · obtain ⟨-, he⟩ | ⟨-, he⟩ := (s.withPorts os is ts).endStream_cases <;> rw [he]
    · exact ⟨id, id, id, id⟩
    · exact ⟨fun _ => rfl, id, id, id⟩

/-- Settles O46: the host's answers and an accepted byte keep STATE; the three other ways are the statement's. -/
theorem runStateMoves : Obligations.RunStateMoves := by
  intro s t h hne
  obtain ⟨os, is, ts, ⟨hreset, rfl⟩ | ⟨hstart, rfl⟩ | ⟨v, b, rfl⟩ | ⟨d, -, hb⟩ | ⟨x, hacc, h8, rfl⟩⟩ :=
    step_effect_cases h
  · exact .inl ⟨hreset, rfl⟩
  · exact .inr (.inl ⟨hstart, rfl⟩)
  · rw [State.raiseIf_accerr_eq] at hne
    exact absurd rfl hne
  · obtain ⟨hrun, -⟩ := State.acceptByte_flags hb
    exact absurd hrun hne
  · refine .inr (.inr ⟨x, hacc, h8, ?_⟩)
    obtain ⟨h0, he⟩ | ⟨h0, he⟩ := (s.withPorts os is ts).endStream_cases <;> rw [he]
    · exact .inl ⟨h0, rfl⟩
    · exact .inr ⟨h0, rfl⟩

end Sys2Proof.Machine
end

section
/-! Non-interference (spec/10_state.md R28, spec/30_encoding.md R30, R83, R84): the bits that no operation reads, and the
two fields that the stream's operations do not read. -/

namespace Sys2Proof.Machine

/-! ## Ignored bits -/

/-- `D` of a host read has no effect (R84). -/
theorem exec_decodeHostRead_data_irrel (a : HostAddr) (d d' : Word) (s : State) :
    exec (decodeHostRead a d) s = exec (decodeHostRead a d') s := by
  unfold decodeHostRead
  split_ifs <;> rfl

/-- Of a CTRL write only bit 0 has an effect (R30). -/
theorem exec_decodeHostWrite_ctrl (d : Word) (s : State) :
    exec (decodeHostWrite 0#23 d) s = .next (if d.getLsbD 0 then s.start else s) := by
  simp only [decodeHostWrite, extractLsb'_one_eq_one_iff, if_true]
  split_ifs <;> rfl

theorem decode_htx56_of_read {h : Htx56} (hwe : htxWe h = 0#1) :
    decode (.htx56 h) = decodeHostRead (htxAddr h) (htxData h) :=
  if_neg (by simp [hwe])

theorem decode_htx56_of_write {h : Htx56} (hwe : htxWe h = 1#1) :
    decode (.htx56 h) = decodeHostWrite (htxAddr h) (htxData h) :=
  if_pos hwe

/-- Host accesses whose operations have the same effect make the same step. -/
theorem step_congr_access {s : State} {turns : List Turn} {h h' : Htx56} (rest : List Htx56)
    (hs : s.schedule = .host :: turns) (hexec : ∀ u, exec (decode (.htx56 h)) u = exec (decode (.htx56 h')) u) :
    step { s with hostIssues := h :: rest } = step { s with hostIssues := h' :: rest } :=
  calc step { s with hostIssues := h :: rest }
    _ = exec (decode (.htx56 h)) { s with schedule := turns, hostIssues := rest } :=
      step_of_host_cons (s := { s with hostIssues := h :: rest }) hs rfl
    _ = exec (decode (.htx56 h')) { s with schedule := turns, hostIssues := rest } := hexec _
    _ = step { s with hostIssues := h' :: rest } :=
      (step_of_host_cons (s := { s with hostIssues := h' :: rest }) hs rfl).symm

/-- Settles O13: each pair of transactions decodes to operations of the same effect. -/
theorem ignoredBitsHaveNoEffect : Obligations.IgnoredBitsHaveNoEffect := by
  refine ⟨?read, ?ctrlWrite, ?endOfStream⟩
  case read =>
    intro s turns h h' rest hs hwe hwe' haddr
    refine step_congr_access rest hs fun u => ?_
    rw [decode_htx56_of_read hwe, decode_htx56_of_read hwe', haddr]
    exact exec_decodeHostRead_data_irrel _ _ _ u
  case ctrlWrite =>
    intro s turns h h' rest hs hwe hwe' haddr haddr' hbit
    refine step_congr_access rest hs fun u => ?_
    rw [decode_htx56_of_write hwe, decode_htx56_of_write hwe', haddr, haddr', exec_decodeHostWrite_ctrl,
      exec_decodeHostWrite_ctrl, htxData_getLsbD_zero, htxData_getLsbD_zero, hbit]
  case endOfStream =>
    intro s turns x x' rest hs hr h8 h8'
    calc step { s with streamOffers := x :: rest }
      _ = exec (decode (.stx9 x)) { s with schedule := turns, streamOffers := rest } :=
        step_of_producer_cons (s := { s with streamOffers := x :: rest }) hs rfl hr
      _ = exec (decode (.stx9 x')) { s with schedule := turns, streamOffers := rest } := by
        rw [decode_stx9_of_eos h8, decode_stx9_of_eos h8', exec_sEos, exec_sEos]
      _ = step { s with streamOffers := x' :: rest } :=
        (step_of_producer_cons (s := { s with streamOffers := x' :: rest }) hs rfl hr).symm

/-! ## ACCERR and the returned data -/

/-- `s` with another ACCERR and other returned data: what host accesses other than START can change. -/
def State.withReadout (s : State) (q : Word) (flag : Bool) : State := { s with q := q, accerr := flag }

theorem State.eventAction_withReadout {f : EventFields} {s t : State} (h : s.eventAction f = .next t) (q : Word)
    (flag : Bool) : (s.withReadout q flag).eventAction f = .next (t.withReadout q flag) := by
  obtain ⟨u, v, hu, hv, rfl⟩ := State.eventAction_eq_next.mp h
  exact State.eventAction_eq_next.mpr ⟨u, v, hu, hv, rfl⟩

theorem State.clockAction_withReadout (w : Word) (s : State) (q : Word) (flag : Bool) :
    (s.withReadout q flag).clockAction w = (s.clockAction w).withReadout q flag := by
  rw [State.clockAction_eq, State.clockAction_eq]
  rfl

theorem State.endStream_withReadout (s : State) (q : Word) (flag : Bool) :
    (s.withReadout q flag).endStream = s.endStream.withReadout q flag := by
  obtain ⟨h0, he⟩ | ⟨h0, he⟩ := s.endStream_cases <;> rw [he]
  · exact if_pos h0
  · exact if_neg h0

theorem State.acceptByte_withReadout {d : Byte} {s t : State} (h : s.acceptByte d = .next t) (q : Word) (flag : Bool) :
    (s.withReadout q flag).acceptByte d = .next (t.withReadout q flag) := by
  by_cases h3 : s.bytePos = 3#3
  · rw [State.acceptByte_event h3] at h
    obtain ⟨s1, h1, h2⟩ := andThen_eq_next.mp h
    cases h2
    rw [State.acceptByte_event (s := s.withReadout q flag) h3]
    exact andThen_eq_next.mpr ⟨_, State.eventAction_withReadout h1 q flag, rfl⟩
  by_cases h7 : s.bytePos = 7#3
  · rw [State.acceptByte_clock h7] at h
    cases h
    rw [State.acceptByte_clock (s := s.withReadout q flag) h7]
    exact congrArg (fun u : State => Host.Outcome.next u.advance)
      (State.clockAction_withReadout (s.abufWith d) { s with abuf := 0#32 } q flag)
  · rw [State.acceptByte_store h3 h7] at h
    cases h
    exact State.acceptByte_store (s := s.withReadout q flag) h3 h7 d

/-- No operation but the host's reads ACCERR or the returned data (R28). -/
theorem exec_withReadout {i : Instr} {s t : State} (hi : isHostOp i = false) (h : exec i s = .next t) (q : Word)
    (flag : Bool) : exec i (s.withReadout q flag) = .next (t.withReadout q flag) := by
  cases i with
  | sByte d =>
    rw [exec_sByte] at h ⊢
    split_ifs at h with hready
    · exact (if_pos hready).trans (State.acceptByte_withReadout h q flag)
    · cases h; exact if_neg hready
  | sEos dc =>
    rw [exec_sEos] at h ⊢
    split_ifs at h with hready
    · cases h; exact (if_pos hready).trans (congrArg _ (s.endStream_withReadout q flag))
    · cases h; exact if_neg hready
  | eventWord r c b e => exact State.eventAction_withReadout h q flag
  | clockWord w => cases h; exact congrArg _ (s.clockAction_withReadout w q flag)
  | hStart | hWrCtrlNop | hWrIllegal | hRdCtrl | hRdStatus | hRdClockLast | hRdPairCount | hRdRsvdCount | hRdConfig
  | hRdAmp | hRdTdc | hRdReserved => cases hi

/-- Settles O40: a host access but START answers `q` and may raise ACCERR; every other operation reads neither. -/
theorem hostAccessesDoNotDisturbTheRun : Obligations.HostAccessesDoNotDisturbTheRun := by
  refine ⟨fun i s t hi hne h => ?_, fun i s t q flag hi h => exec_withReadout hi h q flag⟩
  obtain ⟨⟨dc, hdc⟩, -⟩ | ⟨v, b, rfl⟩ := exec_hostOp_cases hi h
  · exact absurd hdc (hne dc)
  · rw [State.raiseIf_accerr_eq]
    rfl

end Sys2Proof.Machine
end

section
/-! The seven invariants of R37: they hold after RESET and after START, every transaction keeps them, and where they hold
no transaction stops. -/

namespace Sys2Proof.Machine

/-! ## Where a run begins -/

theorem State.takeReset_cellsUnspec (s : State) : s.takeReset.cellsUnspec := ⟨fun _ _ => rfl, fun _ _ => rfl⟩

theorem State.start_cellsZero (s : State) : s.start.cellsZero := ⟨fun _ _ => rfl, fun _ _ => rfl⟩

theorem State.cellsZero.cellsDefined {s : State} (h : s.cellsZero) : s.cellsDefined :=
  ⟨fun c e => by simp [h.1 c e], fun c t => by simp [h.2 c t]⟩

theorem State.takeReset_inv (s : State) : s.takeReset.Inv where
  idleClear _ := ⟨rfl, rfl, rfl, rfl, rfl, rfl, rfl, rfl, s.takeReset_cellsUnspec⟩
  definedAfterStart h := absurd rfl h
  abufBelow := by simp
  doneOnBoundary := nofun
  errorInside := nofun
  truncIff := by simp
  sums h := absurd rfl h

theorem State.start_inv (s : State) : s.start.Inv where
  idleClear := nofun
  definedAfterStart _ := s.start_cellsZero.cellsDefined
  abufBelow := by simp
  doneOnBoundary := nofun
  errorInside := nofun
  truncIff := by simp
  sums _ _ _ := totals_eq_zero s.start_cellsZero

/-- The reset state is what RESET leaves of it. -/
theorem State.takeReset_resetWith (cfg : Config) : (State.resetWith cfg).takeReset = State.resetWith cfg := rfl

theorem State.resetWith_inv (cfg : Config) : (State.resetWith cfg).Inv :=
  State.takeReset_resetWith cfg ▸ State.takeReset_inv _

/-- Settles O48: the reset state is one that RESET leaves. -/
theorem resetMeetsTheInvariants : Obligations.ResetMeetsTheInvariants :=
  ⟨State.resetWith_inv _, State.resetWith_inv⟩

/-- Settles O14: all but STATE and ACCERR are the first of R37's invariants, in IDLE. -/
theorem resetValues : Obligations.ResetValues := by
  intro s hs
  obtain ⟨cfg, rfl⟩ : ∃ cfg, s = State.resetWith cfg := hs.elim (fun h => ⟨_, h⟩) id
  obtain ⟨hpos, habuf, hclock, hpairs, hrsvd, htrunc, hsat, hcntsat, hcells⟩ := (State.resetWith_inv cfg).idleClear rfl
  exact ⟨rfl, hpos, habuf, hclock, hpairs, hrsvd, htrunc, hsat, hcntsat, rfl, hcells⟩

/-! ## What the invariants do not speak of -/

theorem State.Inv.withPorts {s : State} (hs : s.Inv) (offers : List Stx9) (issues : List Htx56) (turns : List Turn) :
    (s.withPorts offers issues turns).Inv :=
  ⟨hs.idleClear, hs.definedAfterStart, hs.abufBelow, hs.doneOnBoundary, hs.errorInside, hs.truncIff, hs.sums⟩

/-- The invariants speak neither of the returned data nor of ACCERR. -/
theorem State.Inv.answer {s : State} (hs : s.Inv) (v : Word) (b : Bool) :
    (State.raiseIf b .accerr (s.reply v)).Inv := by
  rw [State.raiseIf_accerr_eq]
  exact ⟨hs.idleClear, hs.definedAfterStart, hs.abufBelow, hs.doneOnBoundary, hs.errorInside, hs.truncIff, hs.sums⟩

/-! ## The end of a stream -/

/-- In ACCUM no end of stream has been seen, so TRUNC is clear (R37 item 6). -/
theorem State.Inv.trunc_of_accum {s : State} (hs : s.Inv) (hr : s.runState = .accum) : s.trunc = false := by
  have := hs.truncIff
  simpa [hr] using this

theorem State.Inv.endStream {s : State} (hs : s.Inv) (hr : s.runState = .accum) : s.endStream.Inv := by
  have hne : s.runState ≠ .idle := by simp [hr]
  have htrunc := hs.trunc_of_accum hr
  obtain ⟨h0, he⟩ | ⟨h0, he⟩ := s.endStream_cases <;> rw [he]
  · exact ⟨nofun, fun _ => hs.definedAfterStart hne, hs.abufBelow, fun _ => ⟨h0, htrunc⟩, nofun, by simp [htrunc],
      fun _ => hs.sums hne⟩
  · exact ⟨nofun, fun _ => hs.definedAfterStart hne, hs.abufBelow, nofun, fun _ => ⟨h0, rfl⟩, by simp,
      fun _ => hs.sums hne⟩

/-! ## An accepted byte -/

/-- In ACCUM the invariants come down to items 2, 3, 6 and 7. -/
theorem State.Inv.of_accum {s : State} (hr : s.runState = .accum) (htrunc : s.trunc = false) (hdef : s.cellsDefined)
    (habuf : s.abuf.toNat < 2 ^ (8 * (s.bytePos.toNat % 4)))
    (hsums : s.sat = false → s.cntsat = false → s.ampTotal = s.eventsCompleted ∧ s.tdcTotal = s.eventsCompleted) :
    s.Inv where
  idleClear h := by simp [hr] at h
  definedAfterStart _ := hdef
  abufBelow := habuf
  doneOnBoundary h := by simp [hr] at h
  errorInside h := by simp [hr] at h
  truncIff := by simp [hr, htrunc]
  sums _ := hsums

theorem byteLane_toNat (pos : BitVec 3) : (byteLane pos).toNat = pos.toNat % 4 := by
  simp [byteLane, BitVec.extractLsb'_toNat]

/-- Storing a byte in the lowest empty lane fills the word up to that lane and no further (R101). -/
theorem setLane_toNat_lt {w : Word} {k : BitVec 2} (d : Byte) (hw : w.toNat < 2 ^ (8 * k.toNat)) :
    (setLane w k d).toNat < 2 ^ (8 * (k.toNat + 1)) := by
  rw [setLane, BitVec.toNat_or]
  refine Nat.or_lt_two_pow ?kept ?stored
  case kept =>
    rw [BitVec.toNat_and]
    calc w.toNat &&& _
      _ ≤ w.toNat := Nat.and_le_left
      _ < 2 ^ (8 * k.toNat) := hw
      _ ≤ 2 ^ (8 * (k.toNat + 1)) := Nat.pow_le_pow_right (by omega) (by omega)
  case stored =>
    rw [BitVec.toNat_shiftLeft, Nat.shiftLeft_eq]
    calc d.toNat * 2 ^ (8 * k.toNat) % 2 ^ 32
      _ ≤ d.toNat * 2 ^ (8 * k.toNat) := Nat.mod_le _ _
      _ < 2 ^ 8 * 2 ^ (8 * k.toNat) := Nat.mul_lt_mul_of_pos_right d.isLt (by positivity)
      _ = 2 ^ (8 * (k.toNat + 1)) := by ring

/-- Counting an event leaves every cell with a value (R154, R155). -/
theorem State.cellsDefined.afterEvent {s : State} (h : s.cellsDefined) (f : EventFields) (u v : Word) :
    (s.afterEvent f u v).cellsDefined := by
  obtain ⟨hamp, htdc⟩ := h
  refine ⟨fun c e => ?_, fun c t => ?_⟩
  · simp only [State.afterEvent, Memory.read_write_satInc]
    split
    · rfl
    · exact hamp c e
  · simp only [State.afterEvent, Memory.read_write_satInc]
    split
    · rfl
    · exact htdc c t

/-- An increment that does not saturate adds one. -/
theorem satInc_toNat_of_not_saturated {w : Nat} (hw : w ≤ 32) {x : Word} (h : (satInc w x).2 = false) :
    (satInc w x).1.toNat = x.toNat + 1 := by
  have hpow : 2 ^ w ≤ 2 ^ 32 := Nat.pow_le_pow_right (by omega) hw
  have hlt : x.toNat < 2 ^ w - 1 := by rw [satInc_snd] at h; exact not_not.mp (of_decide_eq_false h)
  rw [satInc_fst, if_pos hlt, BitVec.toNat_add, BitVec.toNat_ofNat]
  omega

/-- An event counted with SAT still clear adds one to the sum of each table. -/
theorem State.totals_of_afterEvent {s t : State} {f : EventFields} {u v : Word}
    (hu : s.amp.read (ampAddr f.channel f.energy) = some u) (hv : s.tdc.read (tdcAddr f.channel f.time) = some v)
    (hamp : t.amp = (s.afterEvent f u v).amp) (htdc : t.tdc = (s.afterEvent f u v).tdc)
    (hsat : (s.afterEvent f u v).sat = false) : t.ampTotal = s.ampTotal + 1 ∧ t.tdcTotal = s.tdcTotal + 1 := by
  obtain ⟨⟨-, hsu⟩, hsv⟩ : (s.sat = false ∧ (satInc s.config.cw.bits u).2 = false) ∧
      (satInc s.config.cw.bits v).2 = false := by simpa only [State.afterEvent, Bool.or_eq_false_iff] using hsat
  have hampSum := ampTotal_update (s' := t) hu (by rw [hamp]; exact Memory.read_write_satInc _ _ _ _)
  have htdcSum := tdcTotal_update (s' := t) hv (by rw [htdc]; exact Memory.read_write_satInc _ _ _ _)
  rw [satInc_toNat_of_not_saturated s.config.cw.le_32 hsu] at hampSum
  rw [satInc_toNat_of_not_saturated s.config.cw.le_32 hsv] at htdcSum
  omega

/-- The sums speak of the tables only. -/
theorem State.totals_congr {s t : State} (ha : t.amp = s.amp) (ht : t.tdc = s.tdc) :
    t.ampTotal = s.ampTotal ∧ t.tdcTotal = s.tdcTotal := by
  simp only [State.ampTotal, State.tdcTotal, ha, ht, and_self]

/-- In the first half of a pair its event word is not complete (R37). -/
theorem State.eventsCompleted_of_lt {s : State} (h : s.bytePos.toNat < 4) : s.eventsCompleted = s.pairCount.toNat := by
  rw [State.eventsCompleted, if_neg (by omega), Nat.add_zero]

/-- In the second half of a pair its event word is complete and the pair is not yet counted (R37). -/
theorem State.eventsCompleted_of_le {s : State} (h : 4 ≤ s.bytePos.toNat) :
    s.eventsCompleted = s.pairCount.toNat + 1 := by
  rw [State.eventsCompleted, if_pos h]

theorem State.acceptByte_cellsDefined {d : Byte} {s t : State} (h : s.acceptByte d = .next t) (hdef : s.cellsDefined) :
    t.cellsDefined := by
  obtain ⟨-, u, v, -, -, rfl⟩ | ⟨-, rfl⟩ | ⟨-, -, rfl⟩ := State.acceptByte_cases h
  · exact hdef.afterEvent _ u v
  · rw [State.clockAction_eq]
    exact hdef
  · exact hdef

/-- ABUF stays empty above the lanes filled so far (R37 item 3). -/
theorem State.acceptByte_abufBelow {d : Byte} {s t : State} (h : s.acceptByte d = .next t)
    (habuf : s.abuf.toNat < 2 ^ (8 * (s.bytePos.toNat % 4))) : t.abuf.toNat < 2 ^ (8 * (t.bytePos.toNat % 4)) := by
  obtain ⟨-, u, v, -, -, rfl⟩ | ⟨-, rfl⟩ | ⟨h3, h7, rfl⟩ := State.acceptByte_cases h
  · simp
  · simp
  · have hlane : (s.bytePos + 1#3).toNat % 4 = (byteLane s.bytePos).toNat + 1 := by
      rw [byteLane_toNat]
      bv_omega
    rw [← byteLane_toNat] at habuf
    simpa only [hlane, State.abufWith] using setLane_toNat_lt d habuf

/-- While CNTSAT is clear, the byte that completes the event word is the only one that adds to the events completed: at
the end of the pair BYTEPOS gives up what PAIR_COUNT gains (R101, R157). -/
theorem State.acceptByte_eventsCompleted {d : Byte} {s t : State} (h : s.acceptByte d = .next t)
    (hcntsat : t.cntsat = false) : t.eventsCompleted = s.eventsCompleted + if s.bytePos = 3#3 then 1 else 0 := by
  obtain ⟨h3, u, v, -, -, ht⟩ | ⟨h7, ht⟩ | ⟨h3, h7, ht⟩ := State.acceptByte_cases h
  · have hpairs : t.pairCount = s.pairCount := by rw [ht]; rfl
    rw [State.eventsCompleted_of_le (by simp [ht]), State.eventsCompleted_of_lt (by simp [h3]), hpairs, if_pos h3]
  · rw [State.clockAction_eq] at ht
    have hfull : (satInc 32 s.pairCount).2 = false := (Bool.or_eq_false_iff.mp (ht ▸ hcntsat)).2
    have hpairs : t.pairCount.toNat = s.pairCount.toNat + 1 := by
      rw [ht]
      exact satInc_toNat_of_not_saturated le_rfl hfull
    rw [State.eventsCompleted_of_lt (by simp [ht]), State.eventsCompleted_of_le (by simp [h7]), hpairs,
      if_neg (by simp [h7])]
  · have hhalf : 4 ≤ (s.bytePos + 1#3).toNat ↔ 4 ≤ s.bytePos.toNat := by bv_omega
    simp only [State.eventsCompleted, ht, hhalf, h3, if_false, Nat.add_zero]

/-- While SAT is clear, the byte that completes the event word adds one to both sums. -/
theorem State.acceptByte_totals {d : Byte} {s t : State} (h : s.acceptByte d = .next t) (hsat : t.sat = false)
    (h3 : s.bytePos = 3#3) : t.ampTotal = s.ampTotal + 1 ∧ t.tdcTotal = s.tdcTotal + 1 := by
  obtain ⟨-, u, v, hu, hv, ht⟩ | ⟨h7, -⟩ | ⟨hne, -⟩ := State.acceptByte_cases h
  · exact State.totals_of_afterEvent hu hv (by rw [ht]) (by rw [ht]) (by simpa [ht] using hsat)
  · simp [h3] at h7
  · exact absurd h3 hne

/-- An accepted byte keeps item 7 of R37 while neither SAT nor CNTSAT is set. -/
theorem State.acceptByte_sums {d : Byte} {s t : State} (h : s.acceptByte d = .next t) (hsat : t.sat = false)
    (hcntsat : t.cntsat = false) (hs : s.ampTotal = s.eventsCompleted ∧ s.tdcTotal = s.eventsCompleted) :
    t.ampTotal = t.eventsCompleted ∧ t.tdcTotal = t.eventsCompleted := by
  obtain ⟨hampSum, htdcSum⟩ := hs
  have hevents := State.acceptByte_eventsCompleted h hcntsat
  by_cases h3 : s.bytePos = 3#3
  · obtain ⟨hamp, htdc⟩ := State.acceptByte_totals h hsat h3
    rw [hamp, htdc, hevents, if_pos h3, hampSum, htdcSum]
    exact ⟨rfl, rfl⟩
  · obtain ⟨ha, ht⟩ := State.acceptByte_tables h h3
    obtain ⟨hamp, htdc⟩ := State.totals_congr ha ht
    rw [hamp, htdc, hevents, if_neg h3, hampSum, htdcSum]
    exact ⟨rfl, rfl⟩

/-- An accepted byte keeps each invariant that says something in ACCUM (R37). -/
theorem State.Inv.acceptByte {d : Byte} {s t : State} (hs : s.Inv) (hr : s.runState = .accum)
    (h : s.acceptByte d = .next t) : t.Inv := by
  have hne : s.runState ≠ .idle := by simp [hr]
  obtain ⟨hrun, htrunc, -, hsatKept, hcntsatKept⟩ := State.acceptByte_flags h
  refine .of_accum (hrun.trans hr) (htrunc.trans (hs.trunc_of_accum hr))
    (State.acceptByte_cellsDefined h (hs.definedAfterStart hne)) (State.acceptByte_abufBelow h hs.abufBelow) ?_
  intro hsat hcntsat
  have hsat0 : s.sat = false := Bool.eq_false_iff.mpr (mt hsatKept (by simp [hsat]))
  have hcntsat0 : s.cntsat = false := Bool.eq_false_iff.mpr (mt hcntsatKept (by simp [hcntsat]))
  exact State.acceptByte_sums h hsat hcntsat (hs.sums hne hsat0 hcntsat0)

/-- Settles O49: RESET and START establish the invariants, and every other transaction keeps them. -/
theorem stepKeepsTheInvariants : Obligations.StepKeepsTheInvariants := by
  intro s t hs h
  obtain ⟨os, is, ts, ⟨-, rfl⟩ | ⟨-, rfl⟩ | ⟨v, b, rfl⟩ | ⟨d, ⟨hr, -⟩, hb⟩ | ⟨x, ⟨hr, -⟩, -, rfl⟩⟩ :=
    step_effect_cases h
  · exact State.takeReset_inv _
  · exact State.start_inv _
  · exact (hs.withPorts os is ts).answer v b
  · exact (hs.withPorts os is ts).acceptByte hr hb
  · exact (hs.withPorts os is ts).endStream hr

/-! ## No transaction stops -/

theorem State.cellsDefined.eventAction_completes {s : State} (h : s.cellsDefined) (f : EventFields) :
    ∃ t, s.eventAction f = .next t := by
  obtain ⟨u, hu⟩ := Option.isSome_iff_exists.mp (h.1 f.channel f.energy)
  obtain ⟨v, hv⟩ := Option.isSome_iff_exists.mp (h.2 f.channel f.time)
  exact ⟨_, State.eventAction_eq_next.mpr ⟨u, v, hu, hv, rfl⟩⟩

/-- Where every cell holds a value, an accepted byte answers a next state (R33, R101). -/
theorem State.cellsDefined.acceptByte_completes {s : State} (h : s.cellsDefined) (d : Byte) :
    ∃ t, s.acceptByte d = .next t := by
  by_cases h3 : s.bytePos = 3#3
  · obtain ⟨t, ht⟩ := State.cellsDefined.eventAction_completes (s := { s with abuf := 0#32 }) h (extract (s.abufWith d))
    exact ⟨t.advance, (s.acceptByte_event h3 d).trans (andThen_eq_next.mpr ⟨t, ht, rfl⟩)⟩
  by_cases h7 : s.bytePos = 7#3
  · exact ⟨_, s.acceptByte_clock h7 d⟩
  · exact ⟨_, s.acceptByte_store h3 h7 d⟩

/-- A table read of a defined cell answers a next state; outside DONE the cell is not read at all. -/
theorem State.tableRead_completes {s : State} {cell : Option Word} (h : s.runState = .done → cell.isSome = true) :
    ∃ t, s.tableRead cell = .next t := by
  by_cases hd : s.runState = .done
  · obtain ⟨v, rfl⟩ := Option.isSome_iff_exists.mp (h hd)
    exact ⟨_, State.tableRead_eq_next.mpr (.inl ⟨hd, v, rfl, rfl⟩)⟩
  · exact ⟨_, State.tableRead_eq_next.mpr (.inr ⟨hd, rfl⟩)⟩

/-- Where the cells of a DONE state hold values, every host operation answers a next state (R180). -/
theorem exec_hostOp_completes {i : Instr} {s : State} (hi : isHostOp i = true)
    (h : s.runState = .done → s.cellsDefined) : ∃ t, exec i s = .next t := by
  cases i with
  | sByte | sEos | eventWord | clockWord => cases hi
  | hRdAmp c e dc => exact State.tableRead_completes fun hd => (h hd).1 c e
  | hRdTdc c b dc => exact State.tableRead_completes fun hd => (h hd).2 c b
  | hStart | hWrCtrlNop | hWrIllegal | hRdCtrl | hRdStatus | hRdClockLast | hRdPairCount | hRdRsvdCount | hRdConfig
  | hRdReserved => exact ⟨_, rfl⟩

theorem step_of_reset {s : State} {turns : List Turn} (hs : s.schedule = .resetSignal :: turns) :
    step s = .next (State.takeReset { s with schedule := turns }) := by
  simp [step, State.fetch, hs]

/-- Outside ACCUM the producer's turn passes (R102). -/
theorem step_of_producer_of_not_accum {s : State} {turns : List Turn} (hs : s.schedule = .producer :: turns)
    (hr : s.runState ≠ .accum) : step s = .next { s with schedule := turns } := by
  cases ho : s.streamOffers with
  | nil => simpa [ho] using step_of_producer_nil hs ho
  | cons x rest =>
    have hstep : step s = exec (decode (.stx9 x)) { s with schedule := turns } := by
      simp [step, State.fetch, hs, ho, State.streamReady, hr]
    rw [hstep, exec_stx9_of_not_accum (s := { s with schedule := turns }) hr x, ho]

/-- Settles O51: each turn of the schedule is one of a RESET, a transfer and a host access, and none stops. -/
theorem noStepStops : Obligations.NoStepStops := by
  intro s hs
  have hdef : s.runState ≠ .idle → s.cellsDefined := hs.definedAfterStart
  rcases hsch : s.schedule with _ | ⟨_ | _ | _, turns⟩
  case nil => exact ⟨_, step_of_schedule_nil hsch⟩
  case cons.resetSignal => exact ⟨_, step_of_reset hsch⟩
  case cons.producer =>
    by_cases hr : s.runState = .accum
    case neg => exact ⟨_, step_of_producer_of_not_accum hsch hr⟩
    cases ho : s.streamOffers with
    | nil => exact ⟨_, step_of_producer_nil hsch ho⟩
    | cons x rest =>
      rw [step_of_producer_cons hsch ho hr]
      obtain ⟨-, hx⟩ | ⟨-, hx⟩ :=
        exec_stx9_of_accum (s := { s with schedule := turns, streamOffers := rest }) hr x <;> rw [hx]
      · exact ⟨_, rfl⟩
      · exact State.cellsDefined.acceptByte_completes
          (s := { s with schedule := turns, streamOffers := rest }) (hdef (by simp [hr])) _
  case cons.host =>
    cases ho : s.hostIssues with
    | nil => exact ⟨_, step_of_host_nil hsch ho⟩
    | cons a rest =>
      rw [step_of_host_cons hsch ho]
      exact exec_hostOp_completes (isHostOp_decode_htx56 a) fun hd => hdef (by simp [show s.runState = .done from hd])

end Sys2Proof.Machine
end

section
/-! The order of the ports' transactions and the tables in DONE (spec/20_memory.md R64, R65): what no operation reaches,
and how a run is made of steps. -/

namespace Sys2Proof.Machine

/-! ## What no operation reaches -/

/-- No operation reaches the configuration or a port's list of pending transactions (R31, R64). -/
theorem exec_keeps_config_and_ports {i : Instr} {s t : State} (h : exec i s = .next t) :
    t.config = s.config ∧ t.streamOffers = s.streamOffers ∧ t.hostIssues = s.hostIssues ∧ t.schedule = s.schedule := by
  cases i with
  | sByte d =>
    rw [exec_sByte] at h
    split_ifs at h
    · obtain ⟨-, u, v, -, -, rfl⟩ | ⟨-, rfl⟩ | ⟨-, -, rfl⟩ := State.acceptByte_cases h
      · exact ⟨rfl, rfl, rfl, rfl⟩
      · rw [State.clockAction_eq]; exact ⟨rfl, rfl, rfl, rfl⟩
      · exact ⟨rfl, rfl, rfl, rfl⟩
    · cases h; exact ⟨rfl, rfl, rfl, rfl⟩
  | sEos dc =>
    rw [exec_sEos] at h
    split_ifs at h <;> cases h
    · obtain ⟨-, he⟩ | ⟨-, he⟩ := s.endStream_cases <;> rw [he] <;> exact ⟨rfl, rfl, rfl, rfl⟩
    · exact ⟨rfl, rfl, rfl, rfl⟩
  | eventWord r c b e =>
    obtain ⟨u, v, -, -, rfl⟩ := State.eventAction_eq_next.mp h
    exact ⟨rfl, rfl, rfl, rfl⟩
  | clockWord w => cases h; rw [State.clockAction_eq]; exact ⟨rfl, rfl, rfl, rfl⟩
  | hStart | hWrCtrlNop | hWrIllegal | hRdCtrl | hRdStatus | hRdClockLast | hRdPairCount | hRdRsvdCount | hRdConfig
  | hRdAmp | hRdTdc | hRdReserved =>
    obtain ⟨-, rfl⟩ | ⟨v, b, rfl⟩ := exec_hostOp_cases rfl h
    · exact ⟨rfl, rfl, rfl, rfl⟩
    · rw [State.raiseIf_accerr_eq]; exact ⟨rfl, rfl, rfl, rfl⟩

/-- Settles O12: a step takes off its turn and at most the first transaction of that turn's port; the operation it runs
reaches neither port nor the configuration. -/
theorem stepKeepsIssueOrderAndConfig : Obligations.StepKeepsIssueOrderAndConfig := by
  intro s t h
  obtain ⟨hs, rfl⟩ | ⟨ts, hs, rfl⟩ | ⟨ts, hs, -, rfl⟩ | ⟨ts, hs, -, rfl⟩ | ⟨ts, x, xs, hs, -, -, h⟩ |
    ⟨ts, x, xs, hs, ho, hr, h⟩ | ⟨ts, a, as, hs, ho, h⟩ := step_cases h
  · exact ⟨rfl, by simp [hs], .inl rfl, .inl rfl⟩
  · exact ⟨rfl, by simp [hs], .inl rfl, .inl rfl⟩
  · exact ⟨rfl, by simp [hs], .inl rfl, .inl rfl⟩
  · exact ⟨rfl, by simp [hs], .inl rfl, .inl rfl⟩
  · obtain ⟨hcfg, hoffers, hissues, hturns⟩ := exec_keeps_config_and_ports h
    exact ⟨hcfg, by simp [hs, hturns], .inl hoffers, .inl hissues⟩
  · obtain ⟨hcfg, hoffers, hissues, hturns⟩ := exec_keeps_config_and_ports h
    exact ⟨hcfg, by simp [hs, hturns], .inr ⟨⟨x, hr, by simp [hs], by simp [ho]⟩, by simp [ho, hoffers]⟩, .inl hissues⟩
  · obtain ⟨hcfg, hoffers, hissues, hturns⟩ := exec_keeps_config_and_ports h
    exact ⟨hcfg, by simp [hs, hturns], .inl hoffers, .inr ⟨⟨a, by simp [hs], by simp [ho]⟩, by simp [ho, hissues]⟩⟩

/-! ## Runs -/

/-- A run of the machine, at the model's own types. -/
def runSteps (k : Nat) (s : State) : Result := Host.Core.run Sys2Proof.core k s

/-- A run takes one step, then the rest of the run. -/
theorem runSteps_succ (k : Nat) (s : State) : runSteps (k + 1) s = andThen (step s) (runSteps k) := by
  cases hs : step s <;> simp [runSteps, Host.Core.run, core, hs, andThen]

/-- In DONE a step that takes neither a RESET nor a START only answers the host. -/
theorem step_keeps_readout {s t : State} (h : step s = .next t) (hdone : s.runState = .done) (hreset : ¬ s.takesReset)
    (hstart : ¬ s.takesStart) :
    t.runState = .done ∧ t.amp = s.amp ∧ t.tdc = s.tdc ∧ t.pairCount = s.pairCount ∧ t.rsvdCount = s.rsvdCount ∧
      t.clockLast = s.clockLast := by
  obtain ⟨os, is, ts, ⟨hr, -⟩ | ⟨hs, -⟩ | ⟨v, b, rfl⟩ | ⟨d, ⟨hacc, -⟩, -⟩ | ⟨x, ⟨hacc, -⟩, -⟩⟩ := step_effect_cases h
  · exact absurd hr hreset
  · exact absurd hs hstart
  · rw [State.raiseIf_accerr_eq]
    exact ⟨hdone, rfl, rfl, rfl, rfl, rfl⟩
  · simp [hdone] at hacc
  · simp [hdone] at hacc

/-- Settles O41, by induction on the number of steps: a step shortens the schedule and the issued accesses at most
(`stepKeepsIssueOrderAndConfig`), so the premises hold again after it. -/
theorem tablesStayThroughReadout : Obligations.TablesStayThroughReadout := by
  intro k
  induction k with
  | zero =>
    intro s t hdone _ _ h
    cases h
    exact ⟨hdone, rfl, rfl, rfl, rfl, rfl⟩
  | succ k ih =>
    intro s t hdone hreset hstart h
    obtain ⟨s1, hstep, hrun⟩ := andThen_eq_next.mp ((runSteps_succ k s).symm.trans h)
    obtain ⟨-, hturns, -, hissues⟩ := stepKeepsIssueOrderAndConfig s s1 hstep
    have hissued : ∀ a ∈ s1.hostIssues, a ∈ s.hostIssues := by
      obtain hsame | ⟨-, htail⟩ := hissues
      · exact fun a ha => hsame ▸ ha
      · exact fun a ha => List.mem_of_mem_tail (htail ▸ ha)
    obtain ⟨hdone1, hamp, htdc, hpairs, hrsvd, hclock⟩ := step_keeps_readout hstep hdone
      (fun hr => hreset _ (List.mem_of_head? hr) rfl)
      (fun ⟨a, ⟨_, ha⟩, hbits⟩ => hstart a (List.mem_of_head? ha) hbits)
    obtain ⟨hdone', hamp', htdc', hpairs', hrsvd', hclock'⟩ := ih s1 t hdone1
      (fun x hx => hreset x (List.mem_of_mem_tail (hturns ▸ hx))) (fun a ha => hstart a (hissued a ha)) hrun
    exact ⟨hdone', hamp'.trans hamp, htdc'.trans htdc, hpairs'.trans hpairs, hrsvd'.trans hrsvd, hclock'.trans hclock⟩

end Sys2Proof.Machine
end

section
/-! The host address map (spec/20_memory.md R60) and the reads that it makes legal (R58). -/

namespace Sys2Proof.Machine

/-! ## The address map -/

/-- The AMP window is the addresses with `A[22:21] = 01` (R60, R87). -/
theorem inAmpWindow_iff (a : HostAddr) :
    a.extractLsb' 21 2 = 0b01#2 ↔ 0x200000 ≤ a.toNat ∧ a.toNat ≤ 0x3FFFFF := by
  have := a.isLt
  rw [← BitVec.toNat_inj, BitVec.extractLsb'_toNat, Nat.shiftRight_eq_div_pow, BitVec.toNat_ofNat]
  omega

/-- The TDC window is the addresses with `A[22:19] = 1000` (R60, R87). -/
theorem inTdcWindow_iff (a : HostAddr) :
    a.extractLsb' 19 4 = 0b1000#4 ↔ 0x400000 ≤ a.toNat ∧ a.toNat ≤ 0x47FFFF := by
  have := a.isLt
  rw [← BitVec.toNat_inj, BitVec.extractLsb'_toNat, Nat.shiftRight_eq_div_pow, BitVec.toNat_ofNat]
  omega

theorem reservedAddr_iff (a : HostAddr) :
    reservedAddr a = true ↔ (6 ≤ a.toNat ∧ a.toNat ≤ 0x1FFFFF) ∨ 0x480000 ≤ a.toNat := by
  have := a.isLt
  simp only [reservedAddr, Bool.or_eq_true, Bool.and_eq_true, decide_eq_true_eq, BitVec.le_def, BitVec.toNat_ofNat]
  omega

theorem tableWindowAddr_iff (a : HostAddr) :
    tableWindowAddr a = true ↔ a.extractLsb' 21 2 = 0b01#2 ∨ a.extractLsb' 19 4 = 0b1000#4 := by
  simp [inAmpWindow_iff, inTdcWindow_iff, tableWindowAddr, BitVec.le_def]

/-- Above the six registers the decoder looks at the windows only (R87). -/
theorem decodeHostRead_of_ge {a : HostAddr} (ha : 6 ≤ a.toNat) (d : Word) :
    decodeHostRead a d =
      if a.extractLsb' 21 2 = 0b01#2 then .hRdAmp (a.extractLsb' 12 9) (a.extractLsb' 0 12) d
      else if a.extractLsb' 19 4 = 0b1000#4 then .hRdTdc (a.extractLsb' 10 9) (a.extractLsb' 0 10) d
      else .hRdReserved a d := by
  have hne (k : HostAddr) (hk : k.toNat < 6) : a ≠ k := by rintro rfl; omega
  simp only [decodeHostRead, hne 0#23 (by decide), hne 1#23 (by decide), hne 2#23 (by decide), hne 3#23 (by decide),
    hne 4#23 (by decide), hne 5#23 (by decide), if_false]

theorem decodeHostRead_amp {a : HostAddr} (ha : 0x200000 ≤ a.toNat ∧ a.toNat ≤ 0x3FFFFF) (d : Word) :
    decodeHostRead a d = .hRdAmp (a.extractLsb' 12 9) (a.extractLsb' 0 12) d := by
  rw [decodeHostRead_of_ge (by omega), if_pos ((inAmpWindow_iff a).mpr ha)]

theorem decodeHostRead_tdc {a : HostAddr} (ha : 0x400000 ≤ a.toNat ∧ a.toNat ≤ 0x47FFFF) (d : Word) :
    decodeHostRead a d = .hRdTdc (a.extractLsb' 10 9) (a.extractLsb' 0 10) d := by
  rw [decodeHostRead_of_ge (by omega), if_neg (by rw [inAmpWindow_iff]; omega), if_pos ((inTdcWindow_iff a).mpr ha)]

theorem decodeHostRead_reserved {a : HostAddr} (ha : (6 ≤ a.toNat ∧ a.toNat ≤ 0x1FFFFF) ∨ 0x480000 ≤ a.toNat)
    (d : Word) : decodeHostRead a d = .hRdReserved a d := by
  rw [decodeHostRead_of_ge (by omega), if_neg (by rw [inAmpWindow_iff]; omega), if_neg (by rw [inTdcWindow_iff]; omega)]

theorem decode_htx56_pack_read (a : HostAddr) (d : Word) :
    decode (.htx56 (packHtx56 0#1 a d)) = decodeHostRead a d := by
  rw [decode_htx56_of_read (htxWe_pack 0#1 a d), htxAddr_pack, htxData_pack]

theorem decode_htx56_pack_write (a : HostAddr) (d : Word) :
    decode (.htx56 (packHtx56 1#1 a d)) = decodeHostWrite a d := by
  rw [decode_htx56_of_write (htxWe_pack 1#1 a d), htxAddr_pack, htxData_pack]

/-- The column and the row of an AMP window address make up its offset in the window (R55, R60). -/
theorem ampAddr_extract {a : HostAddr} (ha : 0x200000 ≤ a.toNat ∧ a.toNat ≤ 0x3FFFFF) :
    ampAddr (a.extractLsb' 12 9) (a.extractLsb' 0 12) = a.toNat - 0x200000 := by
  simp only [ampAddr_eq, BitVec.extractLsb'_toNat, Nat.shiftRight_eq_div_pow]
  omega

/-- The column and the row of a TDC window address make up its offset in the window (R55, R60). -/
theorem tdcAddr_extract {a : HostAddr} (ha : 0x400000 ≤ a.toNat ∧ a.toNat ≤ 0x47FFFF) :
    tdcAddr (a.extractLsb' 10 9) (a.extractLsb' 0 10) = a.toNat - 0x400000 := by
  simp only [tdcAddr_eq, BitVec.extractLsb'_toNat, Nat.shiftRight_eq_div_pow]
  omega

/-- Settles O9: the decoder's equation on each range of the map, and the offset that the decoded cell has. -/
theorem windowAddressesNameTheCells : Obligations.WindowAddressesNameTheCells := by
  refine ⟨fun a d hlo hhi => ?amp, fun a d hlo hhi => ?tdc, fun a d ha => ?reserved⟩
  case amp =>
    exact ⟨_, _, (decode_htx56_pack_read a d).trans (decodeHostRead_amp ⟨hlo, hhi⟩ d), ampAddr_extract ⟨hlo, hhi⟩⟩
  case tdc =>
    exact ⟨_, _, (decode_htx56_pack_read a d).trans (decodeHostRead_tdc ⟨hlo, hhi⟩ d), tdcAddr_extract ⟨hlo, hhi⟩⟩
  case reserved => exact (decode_htx56_pack_read a d).trans (decodeHostRead_reserved ha d)

/-! ## Legal host reads -/

/-- A register read answers the register, whatever the last read returned (R185 to R190). -/
theorem exec_registerRead {a : HostAddr} (ha : a.toNat < 6) (d : Word) (s : State) :
    ∃ v, ∀ q, exec (decodeHostRead a d) (s.reply q) = .next (s.reply v) := by
  obtain rfl | rfl | rfl | rfl | rfl | rfl :
      a = 0#23 ∨ a = 1#23 ∨ a = 2#23 ∨ a = 3#23 ∨ a = 4#23 ∨ a = 5#23 := by bv_omega
  exacts [⟨0#32, fun _ => rfl⟩, ⟨s.statusWord, fun _ => rfl⟩, ⟨s.clockLast, fun _ => rfl⟩, ⟨s.pairCount, fun _ => rfl⟩,
    ⟨s.rsvdCount, fun _ => rfl⟩, ⟨Config.word s.config, fun _ => rfl⟩]

/-- In DONE a table read writes the returned data only, and made again it returns the same (R191, R192). -/
theorem State.tableRead_again {cell : Option Word} {s t : State} (hdone : s.runState = .done)
    (h : s.tableRead cell = .next t) : ∃ v, t = s.reply v ∧ (s.reply v).tableRead cell = .next (s.reply v) := by
  obtain ⟨-, v, rfl, rfl⟩ | ⟨hnot, -⟩ := State.tableRead_eq_next.mp h
  · exact ⟨v, rfl, State.tableRead_eq_next.mpr (.inl ⟨hdone, v, rfl, rfl⟩)⟩
  · exact absurd hdone hnot

/-- A legal read is at no reserved address, and at a table window only in DONE (R224). -/
theorem illegalAccess_eq_false_of_read {h : Htx56} {s : State} (hwe : htxWe h = 0#1) :
    illegalAccess h s = false ↔ reservedAddr (htxAddr h) = false ∧
      (tableWindowAddr (htxAddr h) = true → s.runState = .done) := by
  simp [illegalAccess, hwe]

/-- Settles O39: a legal read is one of a register, or of a table window in DONE. -/
theorem legalReadIsIdempotent : Obligations.LegalReadIsIdempotent := by
  intro h s t hwe hlegal hexec
  obtain ⟨hreserved, hwindow⟩ := (illegalAccess_eq_false_of_read hwe).mp hlegal
  rw [tableWindowAddr_iff] at hwindow
  rw [decode_htx56_of_read hwe] at hexec ⊢
  by_cases hlow : (htxAddr h).toNat < 6
  · obtain ⟨v, hv⟩ := exec_registerRead hlow (htxData h) s
    obtain rfl : s.reply v = t := Host.Outcome.next.inj ((hv s.q).symm.trans hexec)
    exact ⟨rfl, hv v⟩
  rw [decodeHostRead_of_ge (Nat.le_of_not_lt hlow)] at hexec ⊢
  split_ifs at hexec ⊢ with hamp htdc
  · obtain ⟨v, rfl, hagain⟩ := State.tableRead_again (hwindow (.inl hamp)) hexec
    exact ⟨rfl, hagain⟩
  · obtain ⟨v, rfl, hagain⟩ := State.tableRead_again (hwindow (.inr htdc)) hexec
    exact ⟨rfl, hagain⟩
  · have hall : reservedAddr (htxAddr h) = true := by
      rw [reservedAddr_iff]
      rw [inAmpWindow_iff] at hamp
      rw [inTdcWindow_iff] at htdc
      omega
    simp [hall] at hreserved

end Sys2Proof.Machine
end

section
/-! The round trip of every operation through its bits (spec/30_encoding.md R83 to R87) and through its bytes
(spec/20_memory.md R51). -/

namespace Sys2Proof
open Sys2Proof.Machine

/-! ## The stream's transfers and the event word -/

theorem packStx9_data (eos : BitVec 1) (d : Byte) : (packStx9 eos d).extractLsb' 0 8 = d := by
  ext i hi
  simp [packStx9, hi, show i < 9 by omega]

theorem packStx9_eos (eos : BitVec 1) (d : Byte) : (packStx9 eos d).extractLsb' 8 1 = eos := by
  ext i hi
  obtain rfl : i = 0 := by omega
  simp [packStx9]

theorem decode_stx9_pack (eos : BitVec 1) (d : Byte) :
    decode (.stx9 (packStx9 eos d)) = if eos = 1#1 then .sEos d else .sByte d := by
  rw [decode, decodeStx9, packStx9_eos, packStx9_data]

/-- EXTRACT gives back the four packed fields (R85, R121). -/
theorem extract_packEvt32 (r : BitVec 1) (c : Channel) (t : TimeBin) (e : Energy) :
    extract (packEvt32 r c t e) = ⟨r, c, t, e⟩ := by
  rw [extract, EventFields.mk.injEq]
  refine ⟨?_, ?_, ?_, ?_⟩ <;> ext i hi <;> interval_cases i <;> simp [packEvt32]

/-! ## The host's accesses -/

theorem decodeHostWrite_start (dc : BitVec 31) :
    decodeHostWrite 0#23 ((dc.setWidth 32 <<< 1) ||| 1#32) = .hStart dc := by
  have hbit : ((dc.setWidth 32 <<< 1) ||| 1#32).extractLsb' 0 1 = 1#1 := by simp [extractLsb'_one_eq_one_iff]
  have hrest : ((dc.setWidth 32 <<< 1) ||| 1#32).extractLsb' 1 31 = dc := by
    ext i hi
    simp [hi, show 1 + i < 32 by omega]
  rw [decodeHostWrite, if_pos rfl, if_pos hbit, hrest]

theorem decodeHostWrite_nop (dc : BitVec 31) : decodeHostWrite 0#23 (dc.setWidth 32 <<< 1) = .hWrCtrlNop dc := by
  have hbit : (dc.setWidth 32 <<< 1).extractLsb' 0 1 ≠ 1#1 := by simp [extractLsb'_one_eq_one_iff]
  have hrest : (dc.setWidth 32 <<< 1).extractLsb' 1 31 = dc := by
    ext i hi
    simp [hi, show 1 + i < 32 by omega]
  rw [decodeHostWrite, if_pos rfl, if_neg hbit, hrest]

/-- A window address of the AMP table is `01`, the row and the column (R60). -/
theorem ampWindowAddr_fields (c : Channel) (e : Energy) :
    (ampWindowAddr c e).extractLsb' 21 2 = 0b01#2 ∧ (ampWindowAddr c e).extractLsb' 12 9 = c ∧
      (ampWindowAddr c e).extractLsb' 0 12 = e := by
  refine ⟨?_, ?_, ?_⟩ <;> ext i hi <;> interval_cases i <;> simp [ampWindowAddr]

/-- A window address of the TDC table is `1000`, the row and the column (R60). -/
theorem tdcWindowAddr_fields (c : Channel) (t : TimeBin) :
    (tdcWindowAddr c t).extractLsb' 19 4 = 0b1000#4 ∧ (tdcWindowAddr c t).extractLsb' 10 9 = c ∧
      (tdcWindowAddr c t).extractLsb' 0 10 = t := by
  refine ⟨?_, ?_, ?_⟩ <;> ext i hi <;> interval_cases i <;> simp [tdcWindowAddr]

theorem decodeHostRead_ampWindowAddr (c : Channel) (e : Energy) (d : Word) :
    decodeHostRead (ampWindowAddr c e) d = .hRdAmp c e d := by
  obtain ⟨hwindow, hrow, hcolumn⟩ := ampWindowAddr_fields c e
  rw [decodeHostRead_amp ((inAmpWindow_iff _).mp hwindow), hrow, hcolumn]

theorem decodeHostRead_tdcWindowAddr (c : Channel) (t : TimeBin) (d : Word) :
    decodeHostRead (tdcWindowAddr c t) d = .hRdTdc c t d := by
  obtain ⟨hwindow, hrow, hcolumn⟩ := tdcWindowAddr_fields c t
  rw [decodeHostRead_tdc ((inTdcWindow_iff _).mp hwindow), hrow, hcolumn]

/-! ## Bits -/

/-- Every well-formed operation is what its encoding decodes to (R83 to R87). -/
theorem decode_encode {i : Instr} (hi : i.wellFormed = true) : decode (encode i) = i := by
  cases i with
  | sByte d => exact decode_stx9_pack 0#1 d
  | sEos dc => exact decode_stx9_pack 1#1 dc
  | eventWord r c t e => rw [encode, decode, decodeEvt32, extract_packEvt32]
  | clockWord w => rfl
  | hStart dc => exact (decode_htx56_pack_write _ _).trans (decodeHostWrite_start dc)
  | hWrCtrlNop dc => exact (decode_htx56_pack_write _ _).trans (decodeHostWrite_nop dc)
  | hWrIllegal a d => exact (decode_htx56_pack_write _ _).trans (if_neg (by simpa [Instr.wellFormed] using hi))
  | hRdAmp c e dc => exact (decode_htx56_pack_read _ _).trans (decodeHostRead_ampWindowAddr c e dc)
  | hRdTdc c t dc => exact (decode_htx56_pack_read _ _).trans (decodeHostRead_tdcWindowAddr c t dc)
  | hRdReserved a dc =>
    exact (decode_htx56_pack_read _ _).trans (decodeHostRead_reserved ((reservedAddr_iff a).mp hi) dc)
  | hRdCtrl | hRdStatus | hRdClockLast | hRdPairCount | hRdRsvdCount | hRdConfig => exact decode_htx56_pack_read _ _

/-! ## Bytes -/

@[simp] theorem leBytes_length (n v : Nat) : (leBytes n v).length = n := by
  induction n generalizing v with
  | zero => rfl
  | succ n ih => rw [leBytes, List.length_cons, ih]

/-- A number that fits in `n` bytes is the number its `n` low bytes stand for (R51). -/
theorem leNat_leBytes {n v : Nat} (h : v < 256 ^ n) : leNat (leBytes n v) = v := by
  induction n generalizing v with
  | zero =>
    obtain rfl : v = 0 := by simpa using h
    rfl
  | succ n ih =>
    rw [leBytes, leNat, ih (Nat.div_lt_of_lt_mul (by rwa [pow_succ'] at h)), BitVec.toNat_ofNat]
    omega

/-- A format's bits fit in its bytes. -/
theorem Format.two_pow_width_le (f : Format) : 2 ^ f.width ≤ 256 ^ f.bytes := by
  cases f <;> decide

theorem Encoding.bits_toNat_lt (x : Encoding) : x.bits.toNat < 2 ^ x.format.width := by
  cases x with
  | stx9 y | evt32 y | clk32 y => rw [Encoding.bits, BitVec.toNat_setWidth_of_le (by decide)]; exact y.isLt
  | htx56 y => exact y.isLt

theorem Encoding.encoding_bits (x : Encoding) : x.format.encoding x.bits.toNat = x := by
  cases x with
  | stx9 y | evt32 y | clk32 y => exact congrArg _ (BitVec.eq_of_toNat_eq (by simp [Encoding.bits]; omega))
  | htx56 y => exact congrArg _ (BitVec.ofNat_toNat ..)

/-- The bytes of an encoding decode to its operation. -/
theorem decodeBytes_leBytes (x : Encoding) :
    decodeBytes x.format (leBytes x.format.bytes x.bits.toNat) = .ok (decode x) := by
  have hlt := x.bits_toNat_lt
  have hnat := leNat_leBytes (hlt.trans_le x.format.two_pow_width_le)
  rw [decodeBytes, if_neg (by simp), hnat, if_pos hlt, x.encoding_bits]

/-- Settles O3: the bytes of an encoding decode to what its bits decode to, and the two rejections are the decoder's
guards. -/
theorem decodeBytesRoundTrip : Obligations.DecodeBytesRoundTrip := by
  refine ⟨fun i hi => ?roundTrip, fun f bs hlen => ?wrongLength, fun f bs hlen hbits => ?strayBits⟩
  case roundTrip => exact (decodeBytes_leBytes (encode i)).trans (congrArg _ (decode_encode hi))
  case wrongLength => exact if_pos hlen
  case strayBits => rw [decodeBytes, if_neg (not_not.mpr hlen), if_neg (Nat.not_lt.mpr hbits)]

end Sys2Proof
end

section
/-! A run between its START and its end of stream (spec/20_memory.md R68): every operation completes and stays in it. -/

namespace Sys2Proof.Machine

theorem exec_sByte_of_accum {s : State} (hr : s.runState = .accum) (d : Byte) : exec (.sByte d) s = s.acceptByte d :=
  if_pos (s.streamReady_iff.mpr hr)

/-- A run is in progress, and every cell holds a value. -/
def State.midRun (s : State) : Prop := s.runState = .accum ∧ s.cellsDefined

theorem State.start_midRun (s : State) : s.start.midRun := ⟨rfl, s.start_cellsZero.cellsDefined⟩

theorem State.midRun.hostOp_completes {i : Instr} {s : State} (hs : s.midRun) (hi : isHostOp i = true) :
    ∃ t, exec i s = .next t ∧ t.midRun := by
  obtain ⟨t, ht⟩ := exec_hostOp_completes hi fun _ => hs.2
  obtain ⟨-, rfl⟩ | ⟨v, b, rfl⟩ := exec_hostOp_cases hi ht
  · exact ⟨_, ht, s.start_midRun⟩
  · exact ⟨_, ht, by rw [State.raiseIf_accerr_eq]; exact hs⟩

/-- In a run every operation but an end of stream answers a next state of a run. -/
theorem State.midRun.exec_completes {i : Instr} {s : State} (hs : s.midRun) (hi : ∀ x, i ≠ .sEos x) :
    ∃ t, exec i s = .next t ∧ t.midRun := by
  obtain ⟨hr, hdef⟩ := hs
  cases i with
  | sByte d =>
    obtain ⟨t, ht⟩ := hdef.acceptByte_completes d
    exact ⟨t, (exec_sByte_of_accum hr d).trans ht, (State.acceptByte_flags ht).1.trans hr,
      State.acceptByte_cellsDefined ht hdef⟩
  | sEos x => exact absurd rfl (hi x)
  | eventWord r c b e =>
    obtain ⟨t, ht⟩ := hdef.eventAction_completes ⟨r, c, b, e⟩
    obtain ⟨u, v, -, -, rfl⟩ := State.eventAction_eq_next.mp ht
    exact ⟨_, ht, hr, hdef.afterEvent _ u v⟩
  | clockWord w => exact ⟨_, rfl, by rw [State.clockAction_eq]; exact ⟨hr, hdef⟩⟩
  | hStart | hWrCtrlNop | hWrIllegal | hRdCtrl | hRdStatus | hRdClockLast | hRdPairCount | hRdRsvdCount | hRdConfig
  | hRdAmp | hRdTdc | hRdReserved => exact State.midRun.hostOp_completes ⟨hr, hdef⟩ rfl

theorem State.midRun.runAll_completes {ops : List Instr} {s : State} (hs : s.midRun)
    (hops : ∀ i ∈ ops, ∀ x, i ≠ .sEos x) :
    ∃ t, runAll ops s = .next t ∧ t.midRun := by
  induction ops generalizing s with
  | nil => exact ⟨s, rfl, hs⟩
  | cons i ops ih =>
    obtain ⟨s1, h1, hs1⟩ := hs.exec_completes (hops i List.mem_cons_self)
    obtain ⟨t, ht, hmid⟩ := ih hs1 fun j hj => hops j (List.mem_cons_of_mem i hj)
    exact ⟨t, andThen_eq_next.mpr ⟨s1, h1, ht⟩, hmid⟩

/-- Settles O42: the operations stay in the run that START begins, and in ACCUM no table read is legal. -/
theorem startEndsTheReadout : Obligations.StartEndsTheReadout := by
  intro s dc ops c e b d hops
  obtain ⟨u, hu, hr, -⟩ := s.start_midRun.runAll_completes hops
  have hillegal (cell : Option Word) : u.tableRead cell = .next u.illegalRead :=
    State.tableRead_eq_next.mpr (.inr ⟨by simp [hr], rfl⟩)
  exact ⟨u, hu, hr, hillegal _, hillegal _⟩

end Sys2Proof.Machine
end

section
/-! The word reader (spec/20_memory.md R51): four accepted bytes, least significant first, perform the word they
form. -/

namespace Sys2Proof.Machine

/-! ## The byte lanes of a word -/

/-- The mask of lane 0 is its eight bits. -/
theorem laneMask_getLsbD (j : Nat) : (0xFF#32).getLsbD j = decide (j < 8) := by
  rw [show 0xFF#32 = (BitVec.allOnes 8).setWidth 32 from rfl, BitVec.getLsbD_setWidth, BitVec.getLsbD_allOnes,
    ← Bool.decide_and]
  exact decide_eq_decide.mpr (by omega)

/-- Lane `k` holds the byte stored in it, and the other lanes are kept (R101). -/
theorem setLane_getLsbD (w : Word) (k : BitVec 2) (d : Byte) {i : Nat} (hi : i < 32) :
    (setLane w k d).getLsbD i = if i / 8 = k.toNat then d.getLsbD (i % 8) else w.getLsbD i := by
  simp only [setLane, BitVec.getLsbD_or, BitVec.getLsbD_and, BitVec.getLsbD_not, BitVec.getLsbD_shiftLeft,
    BitVec.getLsbD_setWidth, laneMask_getLsbD, hi, decide_true, Bool.true_and]
  obtain hlt | heq | hgt : i < 8 * k.toNat ∨ i / 8 = k.toNat ∨ 8 * k.toNat + 8 ≤ i := by omega
  · simp [hlt, show i / 8 ≠ k.toNat by omega]
  · simp [heq, show ¬ i < 8 * k.toNat by omega, show i - 8 * k.toNat = i % 8 by omega, show i % 8 < 8 by omega,
      show i % 8 < 32 by omega]
  · simp [show i / 8 ≠ k.toNat by omega, show ¬ i < 8 * k.toNat by omega, show ¬ i - 8 * k.toNat < 8 by omega,
      BitVec.getLsbD_of_ge d (i - 8 * k.toNat) (by omega)]

theorem appendBytes_getLsbD (b0 b1 b2 b3 : Byte) {i : Nat} (hi : i < 32) :
    (b3 ++ b2 ++ b1 ++ b0).getLsbD i =
      if i / 8 = 3 then b3.getLsbD (i % 8) else if i / 8 = 2 then b2.getLsbD (i % 8)
      else if i / 8 = 1 then b1.getLsbD (i % 8) else b0.getLsbD (i % 8) := by
  simp only [BitVec.getLsbD_append]
  grind

/-- Four lanes stored in order hold the word of the four bytes, whatever the buffer held (R51). -/
theorem setLane_fourBytes (w : Word) (b0 b1 b2 b3 : Byte) :
    setLane (setLane (setLane (setLane w 0#2 b0) 1#2 b1) 2#2 b2) 3#2 b3 = b3 ++ b2 ++ b1 ++ b0 := by
  refine BitVec.eq_of_getLsbD_eq fun i hi => ?_
  have hlane : i / 8 = 0 ∨ i / 8 = 1 ∨ i / 8 = 2 ∨ i / 8 = 3 := by omega
  rw [appendBytes_getLsbD _ _ _ _ hi]
  simp only [setLane_getLsbD _ _ _ hi]
  obtain h | h | h | h := hlane <;> simp [h]

/-! ## Performing a word -/

@[simp] theorem andThen_next_right (r : Result) : (andThen r fun s => .next s) = r := by
  cases r <;> rfl

/-- The byte at BYTEPOS 3 performs the event word of the buffer's four lanes (R103). -/
theorem State.acceptByte_of_event {s : State} (h3 : s.bytePos = 3#3) {d : Byte} {w : Word} {u v : Word}
    (hw : s.abufWith d = w) (hu : s.amp.read (ampAddr (extract w).channel (extract w).energy) = some u)
    (hv : s.tdc.read (tdcAddr (extract w).channel (extract w).time) = some v) :
    s.acceptByte d = .next { s.afterEvent (extract w) u v with abuf := 0#32, bytePos := 4#3 } := by
  have hact : State.eventAction (extract w) { s with abuf := 0#32 } =
      .next (State.afterEvent { s with abuf := 0#32 } (extract w) u v) :=
    State.eventAction_eq_next.mpr ⟨u, v, hu, hv, rfl⟩
  rw [State.acceptByte_event h3, hw, hact]
  simp [State.advance, State.afterEvent, h3]

/-- The byte at BYTEPOS 7 performs the clock word of the buffer's four lanes (R104). -/
theorem State.acceptByte_of_clock {s : State} (h7 : s.bytePos = 7#3) (d : Byte) :
    s.acceptByte d = .next { s.clockAction (s.abufWith d) with abuf := 0#32, bytePos := 0#3 } := by
  rw [State.acceptByte_clock h7]
  simp [State.advance, State.clockAction_eq, h7]

/-- `s` with the first three bytes of a word in ABUF. -/
def State.threeBytes (s : State) (b0 b1 b2 : Byte) : State :=
  { s with abuf := setLane (setLane (setLane s.abuf 0#2 b0) 1#2 b1) 2#2 b2, bytePos := s.bytePos + 3#3 }

/-- Of four bytes from the start of a word, three are stored; the fourth completes the word (R101). -/
theorem runAll_fourBytes {s : State} (hr : s.runState = .accum) (hp : s.bytePos = 0#3 ∨ s.bytePos = 4#3)
    (b0 b1 b2 b3 : Byte) :
    runAll [.sByte b0, .sByte b1, .sByte b2, .sByte b3] s = (s.threeBytes b0 b1 b2).acceptByte b3 := by
  obtain hp | hp := hp <;>
    simp [runAll, exec_sByte_of_accum, State.acceptByte_store, State.advance, State.abufWith, State.threeBytes,
      byteLane, hr, hp]

theorem State.threeBytes_abufWith {s : State} (hp : s.bytePos = 0#3 ∨ s.bytePos = 4#3) (b0 b1 b2 b3 : Byte) :
    (s.threeBytes b0 b1 b2).abufWith b3 = b3 ++ b2 ++ b1 ++ b0 := by
  have hlane : byteLane (s.bytePos + 3#3) = 3#2 := by obtain hp | hp := hp <;> rw [hp] <;> rfl
  rw [State.abufWith, State.threeBytes, hlane, setLane_fourBytes]

/-- Four bytes from BYTEPOS 0 perform the event word they form (R51, R103). -/
theorem runAll_eventBytes {s : State} (hr : s.runState = .accum) (hp : s.bytePos = 0#3) {b0 b1 b2 b3 : Byte}
    {w : Word} (hw : b3 ++ b2 ++ b1 ++ b0 = w) {u v : Word}
    (hu : s.amp.read (ampAddr (extract w).channel (extract w).energy) = some u)
    (hv : s.tdc.read (tdcAddr (extract w).channel (extract w).time) = some v) :
    runAll [.sByte b0, .sByte b1, .sByte b2, .sByte b3] s =
      .next { s.afterEvent (extract w) u v with abuf := 0#32, bytePos := 4#3 } := by
  rw [runAll_fourBytes hr (.inl hp), State.acceptByte_of_event (by simp [State.threeBytes, hp])
    ((State.threeBytes_abufWith (.inl hp) ..).trans hw) hu hv]
  rfl

/-- Four bytes from BYTEPOS 4 perform the clock word they form (R51, R104). -/
theorem runAll_clockBytes {s : State} (hr : s.runState = .accum) (hp : s.bytePos = 4#3) {b0 b1 b2 b3 : Byte}
    {w : Word} (hw : b3 ++ b2 ++ b1 ++ b0 = w) :
    runAll [.sByte b0, .sByte b1, .sByte b2, .sByte b3] s =
      .next { s.clockAction w with abuf := 0#32, bytePos := 0#3 } := by
  rw [runAll_fourBytes hr (.inr hp), State.acceptByte_of_clock (by simp [State.threeBytes, hp]),
    State.threeBytes_abufWith (.inr hp), hw, State.clockAction_eq, State.clockAction_eq]
  rfl

/-- Settles O18: the word action reads and writes neither ABUF nor BYTEPOS, so it answers the same but for them. -/
theorem fourBytesFormOneWord : Obligations.FourBytesFormOneWord := by
  refine fun s t b0 b1 b2 b3 hr => ⟨fun hp h => ?event, fun hp h => ?clock⟩
  case event =>
    obtain ⟨u, v, hu, hv, rfl⟩ := State.eventAction_eq_next.mp h
    exact runAll_eventBytes hr hp rfl hu hv
  case clock =>
    cases h
    rw [runAll_clockBytes hr hp rfl, State.clockAction_eq, State.clockAction_eq]

end Sys2Proof.Machine
end

section
/-! A run of pairs, from its START state to DONE (spec/20_memory.md R51, R52; spec/43_accumulator.md R161): what one
pair does to the block, what a list of pairs has counted, and the steps that take the pairs off the stream port. -/

namespace Sys2Proof.Machine

/-! ## Repeated saturating increments -/

/-- One more, held at `2^CW - 1` (R10). -/
def satSucc (cw : CellWidth) (x : Word) : Word := (satInc cw.bits x).1

/-- Increments accumulate exactly, up to the largest value (R161). -/
theorem satSucc_iterate_toNat (cw : CellWidth) {x : Word} (hx : x.toNat ≤ cw.maxCount) (n : Nat) :
    ((satSucc cw)^[n] x).toNat = min cw.maxCount (x.toNat + n) := by
  induction n with
  | zero => simpa using hx
  | succ n ih =>
    rw [Function.iterate_succ_apply', satSucc, satInc_toNat cw (by omega), ih]
    omega

theorem satSucc_iterate_zero_toNat (cw : CellWidth) (n : Nat) : ((satSucc cw)^[n] 0#32).toNat = min cw.maxCount n := by
  simpa using satSucc_iterate_toNat cw (x := 0#32) (by simp) n

/-! ## One pair -/

/-- The count of an amplitude cell. -/
def State.ampCount (s : State) (c : Channel) (e : Energy) : Word := (s.amp.read (ampAddr c e)).getD 0#32

/-- The count of a timing cell. -/
def State.tdcCount (s : State) (c : Channel) (t : TimeBin) : Word := (s.tdc.read (tdcAddr c t)).getD 0#32

/-- `s` after the event word and the clock word of a pair, on a pair boundary again (R52). -/
def State.afterPair (s : State) (p : Word × Word) : State :=
  let f := extract p.1
  let s1 := s.afterEvent f (s.ampCount f.channel f.energy) (s.tdcCount f.channel f.time)
  { s1 with
    abuf := 0#32, bytePos := 0#3, clockLast := p.2, pairCount := satSucc .default s.pairCount
    cntsat := s1.cntsat || (satInc 32 s.pairCount).2 }

theorem State.cellsDefined.afterPair {s : State} (h : s.cellsDefined) (p : Word × Word) :
    (s.afterPair p).cellsDefined :=
  h.afterEvent (extract p.1) _ _

theorem State.cellsDefined.read_amp {s : State} (h : s.cellsDefined) (c : Channel) (e : Energy) :
    s.amp.read (ampAddr c e) = some (s.ampCount c e) := by
  obtain ⟨v, hv⟩ := Option.isSome_iff_exists.mp (h.1 c e)
  rw [State.ampCount, hv, Option.getD_some]

theorem State.cellsDefined.read_tdc {s : State} (h : s.cellsDefined) (c : Channel) (t : TimeBin) :
    s.tdc.read (tdcAddr c t) = some (s.tdcCount c t) := by
  obtain ⟨v, hv⟩ := Option.isSome_iff_exists.mp (h.2 c t)
  rw [State.tdcCount, hv, Option.getD_some]

theorem selectsAmp_iff {c : Channel} {e : Energy} {w : Word} :
    selectsAmp c e w = true ↔ ampAddr (extract w).channel (extract w).energy = ampAddr c e := by
  simp only [selectsAmp, Bool.and_eq_true, beq_iff_eq]
  exact ⟨fun ⟨hc, he⟩ => by rw [hc, he], ampAddr_inj⟩

theorem selectsTdc_iff {c : Channel} {t : TimeBin} {w : Word} :
    selectsTdc c t w = true ↔ tdcAddr (extract w).channel (extract w).time = tdcAddr c t := by
  simp only [selectsTdc, Bool.and_eq_true, beq_iff_eq]
  exact ⟨fun ⟨hc, ht⟩ => by rw [hc, ht], tdcAddr_inj⟩

theorem State.afterPair_ampCount (s : State) (p : Word × Word) (c : Channel) (e : Energy) :
    (s.afterPair p).ampCount c e =
      if selectsAmp c e p.1 then satSucc s.config.cw (s.ampCount c e) else s.ampCount c e := by
  simp only [State.ampCount, State.afterPair, State.afterEvent, Memory.read_write_satInc, selectsAmp_iff]
  split_ifs with h
  · rw [h]; rfl
  · rfl

theorem State.afterPair_tdcCount (s : State) (p : Word × Word) (c : Channel) (t : TimeBin) :
    (s.afterPair p).tdcCount c t =
      if selectsTdc c t p.1 then satSucc s.config.cw (s.tdcCount c t) else s.tdcCount c t := by
  simp only [State.tdcCount, State.afterPair, State.afterEvent, Memory.read_write_satInc, selectsTdc_iff]
  split_ifs with h
  · rw [h]; rfl
  · rfl

theorem State.afterPair_rsvdCount (s : State) (p : Word × Word) :
    (s.afterPair p).rsvdCount = if p.1.getLsbD 31 then satSucc .default s.rsvdCount else s.rsvdCount := by
  simp only [State.afterPair, State.afterEvent, extract, extractLsb'_one_eq_one_iff]
  rfl

/-! ## A list of pairs -/

/-- `s` after a list of pairs. -/
def State.afterPairs (s : State) (ps : List (Word × Word)) : State := ps.foldl State.afterPair s

/-- What no pair changes, no list of pairs changes. -/
theorem State.afterPairs_keeps {α : Type} {π : State → α} (h : ∀ s p, π (s.afterPair p) = π s) (s : State)
    (ps : List (Word × Word)) : π (s.afterPairs ps) = π s := by
  induction ps generalizing s with
  | nil => rfl
  | cons p ps ih => exact (ih (s.afterPair p)).trans (h s p)

/-- What each selected pair increments has been incremented as often as there are selected pairs. -/
theorem State.afterPairs_counts {π : State → Word} {g : Word → Word} {sel : Word × Word → Bool} {s : State}
    (h : ∀ u p, u.config = s.config → π (u.afterPair p) = if sel p then g (π u) else π u) (ps : List (Word × Word)) :
    π (s.afterPairs ps) = g^[ps.countP sel] (π s) := by
  induction ps generalizing s with
  | nil => rfl
  | cons p ps ih =>
    have htail : π (s.afterPairs (p :: ps)) = g^[ps.countP sel] (π (s.afterPair p)) := ih (s := s.afterPair p) h
    rw [htail, h s p rfl]
    cases hp : sel p with
    | true => rw [List.countP_cons_of_pos hp, Function.iterate_succ_apply, if_pos rfl]
    | false => rw [List.countP_cons_of_neg (by simp [hp]), if_neg (by decide)]

theorem State.afterPairs_ampCount (s : State) (ps : List (Word × Word)) (c : Channel) (e : Energy) :
    (s.afterPairs ps).ampCount c e =
      (satSucc s.config.cw)^[ps.countP fun p => selectsAmp c e p.1] (s.ampCount c e) :=
  State.afterPairs_counts (π := fun u => u.ampCount c e) (fun u p hu => hu ▸ u.afterPair_ampCount p c e) ps

theorem State.afterPairs_tdcCount (s : State) (ps : List (Word × Word)) (c : Channel) (t : TimeBin) :
    (s.afterPairs ps).tdcCount c t =
      (satSucc s.config.cw)^[ps.countP fun p => selectsTdc c t p.1] (s.tdcCount c t) :=
  State.afterPairs_counts (π := fun u => u.tdcCount c t) (fun u p hu => hu ▸ u.afterPair_tdcCount p c t) ps

theorem State.afterPairs_rsvdCount (s : State) (ps : List (Word × Word)) :
    (s.afterPairs ps).rsvdCount = (satSucc .default)^[ps.countP fun p => p.1.getLsbD 31] s.rsvdCount :=
  State.afterPairs_counts (π := State.rsvdCount) (fun u p _ => u.afterPair_rsvdCount p) ps

/-- Every pair is counted in PAIR_COUNT (R157). -/
theorem State.afterPairs_pairCount (s : State) (ps : List (Word × Word)) :
    (s.afterPairs ps).pairCount = (satSucc .default)^[ps.length] s.pairCount := by
  rw [State.afterPairs_counts (π := State.pairCount) (g := satSucc .default) (sel := fun _ => true) fun _ _ _ => rfl,
    List.countP_true]

/-- No pair reaches STATE, TRUNC, ACCERR, the returned data or the configuration. -/
theorem State.afterPairs_frame (s : State) (ps : List (Word × Word)) :
    (s.afterPairs ps).runState = s.runState ∧ (s.afterPairs ps).trunc = s.trunc ∧
      (s.afterPairs ps).accerr = s.accerr ∧ (s.afterPairs ps).q = s.q ∧ (s.afterPairs ps).config = s.config :=
  ⟨State.afterPairs_keeps (π := State.runState) (fun _ _ => rfl) s ps,
    State.afterPairs_keeps (π := State.trunc) (fun _ _ => rfl) s ps,
    State.afterPairs_keeps (π := State.accerr) (fun _ _ => rfl) s ps,
    State.afterPairs_keeps (π := State.q) (fun _ _ => rfl) s ps,
    State.afterPairs_keeps (π := State.config) (fun _ _ => rfl) s ps⟩

theorem State.afterPairs_clockLast (s : State) (ps : List (Word × Word)) :
    (s.afterPairs ps).clockLast = (ps.getLast?.map Prod.snd).getD s.clockLast := by
  induction ps generalizing s with
  | nil => rfl
  | cons p ps ih =>
    have htail : (s.afterPairs (p :: ps)).clockLast = (ps.getLast?.map Prod.snd).getD p.2 := ih (s.afterPair p)
    rw [htail, List.getLast?_cons]
    cases ps.getLast? <;> rfl

theorem State.afterPairs_bytePos {s : State} (hp : s.bytePos = 0#3) (ps : List (Word × Word)) :
    (s.afterPairs ps).bytePos = 0#3 := by
  induction ps generalizing s with
  | nil => exact hp
  | cons p ps ih => exact ih (s := s.afterPair p) rfl

theorem State.cellsDefined.afterPairs {s : State} (h : s.cellsDefined) (ps : List (Word × Word)) :
    (s.afterPairs ps).cellsDefined := by
  induction ps generalizing s with
  | nil => exact h
  | cons p ps ih => exact ih (h.afterPair p)

/-! ## The bytes of a list of pairs -/

/-- The bytes of a word, least significant first (R51). -/
def wordBytes (w : Word) : List Byte :=
  [w.extractLsb' 0 8, w.extractLsb' 8 8, w.extractLsb' 16 8, w.extractLsb' 24 8]

/-- The bytes of a pair: its event word, then its clock word (R52). -/
def pairBytes (p : Word × Word) : List Byte := wordBytes p.1 ++ wordBytes p.2

theorem map_opByte_pairBytes (p : Word × Word) : (pairBytes p).map opByte = opWord p.1 ++ opWord p.2 := rfl

theorem append_wordBytes (w : Word) :
    w.extractLsb' 24 8 ++ w.extractLsb' 16 8 ++ w.extractLsb' 8 8 ++ w.extractLsb' 0 8 = w := by
  rw [BitVec.extractLsb'_append_extractLsb'_eq_extractLsb' (show 24 = 16 + 8 from rfl),
    BitVec.extractLsb'_append_extractLsb'_eq_extractLsb' (show 16 = 8 + 8 from rfl),
    BitVec.extractLsb'_append_extractLsb'_eq_extractLsb' (show 8 = 0 + 8 from rfl), BitVec.extractLsb'_eq_self]

theorem length_flatMap_pairBytes (ps : List (Word × Word)) : (ps.flatMap pairBytes).length = 8 * ps.length := by
  induction ps with
  | nil => rfl
  | cons p ps ih =>
    have hpair : (pairBytes p).length = 8 := rfl
    rw [List.flatMap_cons, List.length_append, hpair, ih, List.length_cons]
    omega

theorem andThen_assoc (r : Result) (f g : State → Result) :
    andThen (andThen r f) g = andThen r fun s => andThen (f s) g := by
  cases r <;> rfl

theorem runAll_append (is js : List Instr) (s : State) : runAll (is ++ js) s = andThen (runAll is s) (runAll js) := by
  induction is generalizing s with
  | nil => rfl
  | cons i is ih =>
    calc andThen (exec i s) (runAll (is ++ js))
      _ = andThen (exec i s) fun s1 => andThen (runAll is s1) (runAll js) := congrArg _ (funext ih)
      _ = andThen (andThen (exec i s) (runAll is)) (runAll js) := (andThen_assoc ..).symm

/-- The bytes of a pair, from a pair boundary, perform its event word and its clock word (R52). -/
theorem runAll_pairBytes {s : State} (hr : s.runState = .accum) (hp : s.bytePos = 0#3) (hdef : s.cellsDefined)
    (p : Word × Word) : runAll ((pairBytes p).map .sByte) s = .next (s.afterPair p) := by
  have hevent := runAll_eventBytes hr hp (append_wordBytes p.1) (hdef.read_amp _ _) (hdef.read_tdc _ _)
  rw [pairBytes, List.map_append, runAll_append]
  refine andThen_eq_next.mpr ⟨_, hevent, ?_⟩
  refine (runAll_clockBytes ?_ ?_ (append_wordBytes p.2)).trans ?_
  · exact hr
  · rfl
  · rw [State.clockAction_eq]
    rfl

theorem runAll_pairs {s : State} (hr : s.runState = .accum) (hp : s.bytePos = 0#3) (hdef : s.cellsDefined)
    (ps : List (Word × Word)) :
    runAll ((ps.flatMap pairBytes).map .sByte) s = .next (s.afterPairs ps) := by
  induction ps generalizing s with
  | nil => rfl
  | cons p ps ih =>
    rw [List.flatMap_cons, List.map_append, runAll_append, runAll_pairBytes hr hp hdef]
    exact ih (s := s.afterPair p) hr rfl (hdef.afterPair p)

/-! ## The machine's steps -/

/-- The last step of a run is taken where the steps before it lead. -/
theorem runSteps_succ_last (k : Nat) (s : State) : runSteps (k + 1) s = andThen (runSteps k s) step := by
  induction k generalizing s with
  | zero => exact (runSteps_succ 0 s).trans (andThen_next_right (step s))
  | succ k ih =>
    calc runSteps (k + 2) s
      _ = andThen (step s) (runSteps (k + 1)) := runSteps_succ (k + 1) s
      _ = andThen (step s) fun s1 => andThen (runSteps k s1) step := congrArg _ (funext ih)
      _ = andThen (andThen (step s) (runSteps k)) step := (andThen_assoc ..).symm
      _ = andThen (runSteps (k + 1) s) step := by rw [runSteps_succ]

theorem decode_opByte (b : Byte) : decode (.stx9 (opByte b)) = .sByte b := decode_stx9_pack 0#1 b

theorem decode_opEos : decode (.stx9 opEos) = .sEos 0#8 := decode_stx9_pack 1#1 0#8

@[simp] theorem State.withPorts_runState (s : State) (offers : List Stx9) (issues : List Htx56) (turns : List Turn) :
    (s.withPorts offers issues turns).runState = s.runState := rfl

/-- An accepted byte does not depend on the transactions pending on the ports. -/
theorem State.acceptByte_withPorts {d : Byte} {s t : State} (h : s.acceptByte d = .next t) (offers : List Stx9)
    (issues : List Htx56) (turns : List Turn) :
    (s.withPorts offers issues turns).acceptByte d = .next (t.withPorts offers issues turns) := by
  obtain ⟨h3, u, v, hu, hv, rfl⟩ | ⟨h7, rfl⟩ | ⟨h3, h7, rfl⟩ := State.acceptByte_cases h
  · exact State.acceptByte_of_event (s := s.withPorts offers issues turns) h3 rfl hu hv
  · rw [State.acceptByte_of_clock (s := s.withPorts offers issues turns) h7, State.clockAction_eq, State.clockAction_eq]
    rfl
  · exact State.acceptByte_store (s := s.withPorts offers issues turns) h3 h7 d

/-- In ACCUM a transfer offered next is taken off and run (R64, R102). -/
theorem step_offered {s : State} (hr : s.runState = .accum) (x : Stx9) (rest : List Stx9) (issues : List Htx56)
    (turns : List Turn) :
    step (s.withPorts (x :: rest) issues (.producer :: turns)) =
      exec (decode (.stx9 x)) (s.withPorts rest issues turns) :=
  step_of_producer_cons (s := s.withPorts (x :: rest) issues (.producer :: turns)) rfl rfl hr

/-- Offered bytes with as many producer's turns are accepted one after another. -/
theorem runSteps_offeredBytes {bs : List Byte} {s t : State} (hr : s.runState = .accum)
    (h : runAll (bs.map .sByte) s = .next t) (rest : List Stx9) (issues : List Htx56) (turns : List Turn) :
    runSteps bs.length
        (s.withPorts (bs.map opByte ++ rest) issues (List.replicate bs.length .producer ++ turns)) =
      .next (t.withPorts rest issues turns) := by
  induction bs generalizing s with
  | nil => cases h; rfl
  | cons b bs ih =>
    obtain ⟨s1, h1, hrest⟩ := andThen_eq_next.mp h
    rw [exec_sByte_of_accum hr] at h1
    have hstep : step (s.withPorts ((b :: bs).map opByte ++ rest) issues
          (List.replicate (b :: bs).length .producer ++ turns)) =
        .next (s1.withPorts (bs.map opByte ++ rest) issues (List.replicate bs.length .producer ++ turns)) := by
      rw [List.map_cons, List.cons_append, List.length_cons, List.replicate_succ, List.cons_append, step_offered hr,
        decode_opByte, exec_sByte_of_accum ((s.withPorts_runState ..).trans hr),
        State.acceptByte_withPorts h1]
    rw [List.length_cons, runSteps_succ]
    exact andThen_eq_next.mpr ⟨_, hstep, ih ((State.acceptByte_flags h1).1.trans hr) hrest⟩

/-- The end of stream offered next on a pair boundary ends the run in DONE (R106). -/
theorem step_offeredEos {s : State} (hr : s.runState = .accum) (hp : s.bytePos = 0#3) (rest : List Stx9)
    (issues : List Htx56) (turns : List Turn) :
    step (s.withPorts (opEos :: rest) issues (.producer :: turns)) =
      .next { s.withPorts rest issues turns with runState := .done } := by
  rw [step_offered hr, decode_opEos, exec_sEos]
  exact (if_pos ((State.streamReady_iff _).mpr hr)).trans (congrArg _ (if_pos hp))

/-- Pairs offered as bytes and ended by an end of stream are all performed, in one step a transfer. -/
theorem runSteps_offeredPairs {s : State} (hr : s.runState = .accum) (hp : s.bytePos = 0#3) (hdef : s.cellsDefined)
    (ps : List (Word × Word)) (rest : List Stx9) (issues : List Htx56) (turns : List Turn) :
    runSteps (8 * ps.length + 1)
        (s.withPorts (ps.flatMap (fun p => opWord p.1 ++ opWord p.2) ++ opEos :: rest) issues
          (List.replicate (8 * ps.length + 1) .producer ++ turns)) =
      .next { (s.afterPairs ps).withPorts rest issues turns with runState := .done } := by
  have hbytes := runSteps_offeredBytes hr (runAll_pairs hr hp hdef ps) (opEos :: rest) issues (.producer :: turns)
  obtain ⟨hrun, -⟩ := s.afterPairs_frame ps
  rw [length_flatMap_pairBytes, List.map_flatMap] at hbytes
  rw [runSteps_succ_last, List.replicate_succ', List.append_assoc]
  exact andThen_eq_next.mpr
    ⟨_, hbytes, step_offeredEos (hrun.trans hr) (State.afterPairs_bytePos hp ps) rest issues turns⟩

/-- Settles O29: the transfers are accepted one a step (`runSteps_offeredPairs`), and in the state they lead to each
count has been incremented once for each pair that selects it (`State.afterPairs_counts`). -/
theorem streamOfPairsIsCounted : Obligations.StreamOfPairsIsCounted := by
  intro ps s rest turns hr hp hzero hpairs hrsvd hoffers hschedule
  have hdef := hzero.cellsDefined.afterPairs ps
  have hrun := runSteps_offeredPairs hr hp hzero.cellsDefined ps rest s.hostIssues turns
  rw [← hoffers, ← hschedule] at hrun
  obtain ⟨-, htrunc, haccerr, hq, hconfig⟩ := s.afterPairs_frame ps
  refine ⟨_, hrun, rfl, State.afterPairs_bytePos hp ps, htrunc, haccerr, hq, hconfig, rfl, rfl, rfl,
    fun c e => ⟨_, hdef.read_amp c e, ?amp⟩, fun c b => ⟨_, hdef.read_tdc c b, ?tdc⟩, ?pairCount, ?rsvdCount,
    s.afterPairs_clockLast ps⟩
  case amp =>
    rw [State.afterPairs_ampCount, State.ampCount, hzero.1 c e]
    exact satSucc_iterate_zero_toNat s.config.cw _
  case tdc =>
    rw [State.afterPairs_tdcCount, State.tdcCount, hzero.2 c b]
    exact satSucc_iterate_zero_toNat s.config.cw _
  case pairCount =>
    change (s.afterPairs ps).pairCount.toNat = _
    rw [State.afterPairs_pairCount, hpairs]
    exact satSucc_iterate_zero_toNat .default _
  case rsvdCount =>
    change (s.afterPairs ps).rsvdCount.toNat = _
    rw [State.afterPairs_rsvdCount, hrsvd]
    exact satSucc_iterate_zero_toNat .default _

end Sys2Proof.Machine
end

section
/-! Every bit pattern is the encoding of the operation it decodes to (spec/30_encoding.md R83 to R89). -/

namespace Sys2Proof
open Sys2Proof.Machine

/-- Settles O1: the case split over the sixteen operations is in `decode_encode`. -/
theorem decodeOfEncodeIsTheInstruction : Obligations.DecodeOfEncodeIsTheInstruction := fun _ hi => decode_encode hi

/-! ## Stream transfers and event words -/

/-- Settles O5: the data byte is bits 7:0 of the transfer, and no arm reads the `d` of an S_EOS. -/
theorem streamTransferDecode : Obligations.StreamTransferDecode := by
  refine ⟨fun x h8 => ?dataByte, fun x h8 => ?endOfStream, fun d d' s => ?ignored⟩
  case dataByte =>
    obtain ⟨h8', -⟩ | ⟨-, hd⟩ := decode_stx9_cases x
    · exact absurd (h8.symm.trans h8') Bool.false_ne_true
    · rw [hd, BitVec.setWidth_eq_extractLsb' (by decide)]
  case endOfStream => rw [decode_stx9_of_eos h8, BitVec.setWidth_eq_extractLsb' (by decide)]
  case ignored => rw [exec_sEos, exec_sEos]

/-- A transfer is its two fields (R83). -/
theorem packStx9_fields (x : Stx9) : packStx9 (x.extractLsb' 8 1) (x.extractLsb' 0 8) = x := by
  ext i hi
  by_cases h8 : i < 8
  · simp [packStx9, h8, hi]
  · obtain rfl : i = 8 := by omega
    simp [packStx9]

/-- An event word is its four fields (R81, R85). -/
theorem packEvt32_fields (w : Word) :
    packEvt32 (w.extractLsb' 31 1) (w.extractLsb' 22 9) (w.extractLsb' 12 10) (w.extractLsb' 0 12) = w := by
  ext i hi
  simp only [packEvt32, BitVec.getElem_or, BitVec.getElem_shiftLeft, BitVec.getElem_setWidth,
    BitVec.getLsbD_extractLsb']
  by_cases h12 : i < 12
  · simp [h12, hi, show i < 22 by omega, show i < 31 by omega]
  by_cases h22 : i < 22
  · simp [h12, h22, hi, show i < 31 by omega, show 12 + (i - 12) = i by omega, show i - 12 < 10 by omega]
  by_cases h31 : i < 31
  · simp [h12, h22, h31, hi, show 22 + (i - 22) = i by omega, show i - 22 < 9 by omega, show ¬ i - 12 < 10 by omega]
  · obtain rfl : i = 31 := by omega
    simp

/-! ## Host accesses -/

/-- The data of a CTRL write is its bits 31:1 and its bit 0 (R30). -/
theorem ctrlData_fields (d : Word) :
    ((d.extractLsb' 1 31).setWidth 32 <<< 1) ||| (d.extractLsb' 0 1).setWidth 32 = d := by
  ext i hi
  by_cases h0 : i = 0
  · simp [h0]
  · simp [h0, hi, show 1 + (i - 1) = i by omega, show i - 1 < 31 by omega]

/-- The cell that an AMP window address names has that window address (R55, R60). -/
theorem ampWindowAddr_extract {a : HostAddr} (ha : a.extractLsb' 21 2 = 0b01#2) :
    ampWindowAddr (a.extractLsb' 12 9) (a.extractLsb' 0 12) = a := by
  obtain ⟨hwindow, hrow, hcolumn⟩ := ampWindowAddr_fields (a.extractLsb' 12 9) (a.extractLsb' 0 12)
  have hin := (inAmpWindow_iff a).mp ha
  have hin' := (inAmpWindow_iff _).mp hwindow
  have hoffset := ampAddr_extract hin'
  rw [hrow, hcolumn, ampAddr_extract hin] at hoffset
  exact BitVec.eq_of_toNat_eq (by omega)

/-- The cell that a TDC window address names has that window address (R55, R60). -/
theorem tdcWindowAddr_extract {a : HostAddr} (ha : a.extractLsb' 19 4 = 0b1000#4) :
    tdcWindowAddr (a.extractLsb' 10 9) (a.extractLsb' 0 10) = a := by
  obtain ⟨hwindow, hrow, hcolumn⟩ := tdcWindowAddr_fields (a.extractLsb' 10 9) (a.extractLsb' 0 10)
  have hin := (inTdcWindow_iff a).mp ha
  have hin' := (inTdcWindow_iff _).mp hwindow
  have hoffset := tdcAddr_extract hin'
  rw [hrow, hcolumn, tdcAddr_extract hin] at hoffset
  exact BitVec.eq_of_toNat_eq (by omega)

/-- An address that is no register's and in no window is reserved (R60). -/
theorem reservedAddr_of_not_window {a : HostAddr} (hlow : 6 ≤ a.toNat) (hamp : a.extractLsb' 21 2 ≠ 0b01#2)
    (htdc : a.extractLsb' 19 4 ≠ 0b1000#4) : reservedAddr a = true := by
  rw [Ne, inAmpWindow_iff] at hamp
  rw [Ne, inTdcWindow_iff] at htdc
  rw [reservedAddr_iff]
  omega

/-- The six register addresses (R60). -/
theorem registerAddr_cases {a : HostAddr} (ha : a.toNat < 6) :
    a = 0#23 ∨ a = 1#23 ∨ a = 2#23 ∨ a = 3#23 ∨ a = 4#23 ∨ a = 5#23 := by bv_omega

/-! ## Encoding what was decoded -/

theorem eq_zero_of_ne_one {b : BitVec 1} (hb : b ≠ 1#1) : b = 0#1 := (BitVec.eq_zero_or_eq_one b).resolve_right hb

/-- The operation of a transfer is well-formed and encodes to it (R83, R86). -/
theorem encode_decodeStx9 (x : Stx9) : encode (decodeStx9 x) = .stx9 x ∧ (decodeStx9 x).wellFormed = true := by
  have hx := packStx9_fields x
  unfold decodeStx9
  split_ifs with h8
  · rw [h8] at hx
    exact ⟨congrArg _ hx, rfl⟩
  · rw [eq_zero_of_ne_one h8] at hx
    exact ⟨congrArg _ hx, rfl⟩

/-- The operation of a host write is well-formed and encodes to it (R87). -/
theorem encode_decodeHostWrite (a : HostAddr) (d : Word) :
    encode (decodeHostWrite a d) = .htx56 (packHtx56 1#1 a d) ∧ (decodeHostWrite a d).wellFormed = true := by
  have hd := ctrlData_fields d
  unfold decodeHostWrite
  split_ifs with ha h0
  · rw [h0, show (1#1).setWidth 32 = 1#32 from rfl] at hd
    exact ⟨by rw [encode, ha, hd], rfl⟩
  · rw [eq_zero_of_ne_one h0, BitVec.setWidth_zero, BitVec.or_zero] at hd
    exact ⟨by rw [encode, ha, hd], rfl⟩
  · exact ⟨rfl, by simpa [Instr.wellFormed] using ha⟩

/-- The operation of a host read is well-formed and encodes to it (R87). -/
theorem encode_decodeHostRead (a : HostAddr) (d : Word) :
    encode (decodeHostRead a d) = .htx56 (packHtx56 0#1 a d) ∧ (decodeHostRead a d).wellFormed = true := by
  by_cases hlow : a.toNat < 6
  · obtain rfl | rfl | rfl | rfl | rfl | rfl := registerAddr_cases hlow <;> exact ⟨rfl, rfl⟩
  rw [decodeHostRead_of_ge (Nat.le_of_not_lt hlow)]
  split_ifs with hamp htdc
  · exact ⟨by rw [encode, ampWindowAddr_extract hamp], rfl⟩
  · exact ⟨by rw [encode, tdcWindowAddr_extract htdc], rfl⟩
  · exact ⟨rfl, reservedAddr_of_not_window (Nat.le_of_not_lt hlow) hamp htdc⟩

/-- The operation of a host transaction is well-formed and encodes to it (R84, R87). -/
theorem encode_decodeHtx56 (h : Htx56) :
    encode (decode (.htx56 h)) = .htx56 h ∧ (decode (.htx56 h)).wellFormed = true := by
  have hh := packHtx56_fields h
  obtain hwe | hwe := BitVec.eq_zero_or_eq_one (htxWe h)
  · rw [decode_htx56_of_read hwe, ← hh, htxAddr_pack, htxData_pack, hwe]
    exact encode_decodeHostRead _ _
  · rw [decode_htx56_of_write hwe, ← hh, htxAddr_pack, htxData_pack, hwe]
    exact encode_decodeHostWrite _ _

/-- Settles O2, format by format: a transaction is its packed fields, and the decoder's conditions give back those
fields that the encoder writes as constants. -/
theorem encodeOfDecodeIsTheEncoding : Obligations.EncodeOfDecodeIsTheEncoding
  | .stx9 x => encode_decodeStx9 x
  | .evt32 w => ⟨congrArg _ (packEvt32_fields w), rfl⟩
  | .clk32 _ => ⟨rfl, rfl⟩
  | .htx56 h => encode_decodeHtx56 h

end Sys2Proof
end

section
/-! The host's decoder selects the matching row of the opcode table that fixes the most bits (spec/30_encoding.md
R87). -/

namespace Sys2Proof
open Sys2Proof.Machine

/-! ## The opcode table's rows -/

/-- The twelve rows are those of the host's operations. -/
theorem mem_htxRows_iff {row : OpcodeRow} : row ∈ htxRows ↔ ∃ i, row = opcodeRow i ∧ isHostOp i = true := by
  constructor
  · intro hrow
    simp only [htxRows, List.mem_cons, List.not_mem_nil, or_false] at hrow
    obtain rfl | rfl | rfl | rfl | rfl | rfl | rfl | rfl | rfl | rfl | rfl | rfl := hrow <;> exact ⟨_, rfl, rfl⟩
  · rintro ⟨i, rfl, hi⟩
    cases i with
    | sByte | sEos | eventWord | clockWord => cases hi
    | hStart | hWrCtrlNop | hWrIllegal | hRdCtrl | hRdStatus | hRdClockLast | hRdPairCount | hRdRsvdCount | hRdConfig
    | hRdAmp | hRdTdc | hRdReserved => simp [htxRows, opcodeRow]

/-- The family FixedBits over every operation. -/
theorem encode_matches_opcodeRow (i : Instr) : Laws.FixedBits.Statement i := by
  cases i with
  | sByte d => exact Laws.FixedBits.sByte d
  | sEos dc => exact Laws.FixedBits.sEos dc
  | eventWord r c t e => exact Laws.FixedBits.eventWord r c t e
  | clockWord w => exact Laws.FixedBits.clockWord w
  | hStart dc => exact Laws.FixedBits.hStart dc
  | hWrCtrlNop dc => exact Laws.FixedBits.hWrCtrlNop dc
  | hWrIllegal a d => exact Laws.FixedBits.hWrIllegal a d
  | hRdCtrl dc => exact Laws.FixedBits.hRdCtrl dc
  | hRdStatus dc => exact Laws.FixedBits.hRdStatus dc
  | hRdClockLast dc => exact Laws.FixedBits.hRdClockLast dc
  | hRdPairCount dc => exact Laws.FixedBits.hRdPairCount dc
  | hRdRsvdCount dc => exact Laws.FixedBits.hRdRsvdCount dc
  | hRdConfig dc => exact Laws.FixedBits.hRdConfig dc
  | hRdAmp c e dc => exact Laws.FixedBits.hRdAmp c e dc
  | hRdTdc c t dc => exact Laws.FixedBits.hRdTdc c t dc
  | hRdReserved a dc => exact Laws.FixedBits.hRdReserved a dc

/-- A host transaction matches the row of its operation. -/
theorem opcodeRow_decode_accepts (h : Htx56) : (opcodeRow (decode (.htx56 h))).accepts h = true := by
  obtain ⟨henc, hwf⟩ := encode_decodeHtx56 h
  obtain ⟨-, hacc⟩ := encode_matches_opcodeRow (decode (.htx56 h)) hwf
  rwa [henc] at hacc

/-- Two rows give one value to the bits that both fix, so that one transaction can match both. -/
def OpcodeRow.agrees (row row' : OpcodeRow) : Bool := row.value &&& row'.mask == row'.value &&& row.mask

theorem OpcodeRow.agrees_of_accepts {row row' : OpcodeRow} {h : Htx56} (hacc : row.accepts h = true)
    (hacc' : row'.accepts h = true) : row.agrees row' = true := by
  have hbits : h &&& row.mask = row.value := beq_iff_eq.mp hacc
  have hbits' : h &&& row'.mask = row'.value := beq_iff_eq.mp hacc'
  rw [OpcodeRow.agrees, beq_iff_eq, ← hbits, ← hbits', BitVec.and_assoc, BitVec.and_assoc, BitVec.and_comm row.mask]

/-- The two rows that the address map falls back to (R87). -/
def fallbackRows : List OpcodeRow := [opcodeRow (.hWrIllegal 0 0), opcodeRow (.hRdReserved 0 0)]

/-- Two rows that can match one transaction are nested (R87). -/
theorem nested_of_agrees : ∀ row ∈ htxRows, ∀ row' ∈ htxRows, row.agrees row' = true →
    row.mask &&& row'.mask = row.mask ∨ row.mask &&& row'.mask = row'.mask := by decide

/-- A fallback row fixes fewer bits than every other row that can match with it (R87). -/
theorem fallback_fixes_fewer : ∀ row ∈ fallbackRows, ∀ row' ∈ htxRows, row.agrees row' = true → row ≠ row' →
    row.fixedBits < row'.fixedBits := by decide

/-! ## The decoder's choice -/

/-- A transaction that matches a row has the row's value in every field whose bits the row fixes. -/
theorem extractLsb'_of_accepts {f : Format} {value mask : BitVec 56} {h : Htx56} (k n : Nat)
    (hacc : (OpcodeRow.mk f value mask).accepts h = true) (hm : mask.extractLsb' k n = BitVec.allOnes n) :
    h.extractLsb' k n = value.extractLsb' k n := by
  have hbits : h &&& mask = value := beq_iff_eq.mp hacc
  rw [← hbits, BitVec.extractLsb'_and, hm, BitVec.and_allOnes]

/-- A transaction that matches a row of the whole address is an access to that address (R87). -/
theorem htxAddr_of_accepts {f : Format} {value mask : BitVec 56} {h : Htx56}
    (hacc : (OpcodeRow.mk f value mask).accepts h = true) (hm : htxAddr mask = BitVec.allOnes 23) :
    htxAddr h = htxAddr value := extractLsb'_of_accepts 32 23 hacc hm

/-- A transaction that matches a row of a fixed `we` is an access of that kind (R87). -/
theorem htxWe_of_accepts {f : Format} {value mask : BitVec 56} {h : Htx56}
    (hacc : (OpcodeRow.mk f value mask).accepts h = true) (hm : htxWe mask = 1#1) :
    htxWe h = htxWe value := extractLsb'_of_accepts 55 1 hacc hm

/-- A transaction that matches the row of a register read is a read of that register (R87). -/
theorem decode_of_accepts_registerRow {f : Format} {value : BitVec 56} {h : Htx56} (a : HostAddr)
    (hacc : (OpcodeRow.mk f value 0xFFFFFF00000000#56).accepts h = true) (hwe : htxWe value = 0#1)
    (haddr : htxAddr value = a) : decode (.htx56 h) = decodeHostRead a (htxData h) := by
  rw [decode_htx56_of_read ((htxWe_of_accepts hacc (by decide)).trans hwe), htxAddr_of_accepts hacc (by decide), haddr]

/-- A transaction that matches the row of a CTRL write is a write of CTRL (R87). -/
theorem decode_of_accepts_ctrlRow {f : Format} {value : BitVec 56} {h : Htx56}
    (hacc : (OpcodeRow.mk f value 0xFFFFFF00000001#56).accepts h = true) (hwe : htxWe value = 1#1)
    (haddr : htxAddr value = 0#23) : decode (.htx56 h) = decodeHostWrite 0#23 (htxData h) := by
  rw [decode_htx56_of_write ((htxWe_of_accepts hacc (by decide)).trans hwe), htxAddr_of_accepts hacc (by decide), haddr]

theorem htxAddr_extract (h : Htx56) {k n : Nat} (hk : k + n ≤ 23) :
    (htxAddr h).extractLsb' k n = h.extractLsb' (32 + k) n := by
  ext i hi
  simp [htxAddr, Nat.add_assoc, show k + i < 23 by omega]

theorem htxData_extract (h : Htx56) {k n : Nat} (hk : k + n ≤ 32) :
    (htxData h).extractLsb' k n = h.extractLsb' k n :=
  BitVec.extractLsb'_extractLsb'_of_le hk

/-- A row that matches is the row of the decoded operation, or one of the two fallback rows (R87). -/
theorem opcodeRow_eq_of_accepts {i : Instr} (hi : isHostOp i = true) {h : Htx56}
    (hacc : (opcodeRow i).accepts h = true) :
    opcodeRow i = opcodeRow (decode (.htx56 h)) ∨ opcodeRow i ∈ fallbackRows := by
  cases i with
  | sByte | sEos | eventWord | clockWord => cases hi
  | hWrIllegal a d => exact .inr (.head _)
  | hRdReserved a dc => exact .inr (.tail _ (.head _))
  | hRdCtrl => exact .inl (by rw [decode_of_accepts_registerRow 0#23 hacc (by decide) (by decide)]; rfl)
  | hRdStatus => exact .inl (by rw [decode_of_accepts_registerRow 1#23 hacc (by decide) (by decide)]; rfl)
  | hRdClockLast => exact .inl (by rw [decode_of_accepts_registerRow 2#23 hacc (by decide) (by decide)]; rfl)
  | hRdPairCount => exact .inl (by rw [decode_of_accepts_registerRow 3#23 hacc (by decide) (by decide)]; rfl)
  | hRdRsvdCount => exact .inl (by rw [decode_of_accepts_registerRow 4#23 hacc (by decide) (by decide)]; rfl)
  | hRdConfig => exact .inl (by rw [decode_of_accepts_registerRow 5#23 hacc (by decide) (by decide)]; rfl)
  | hStart dc =>
    have h0 : (htxData h).extractLsb' 0 1 = 1#1 :=
      (htxData_extract h (by decide)).trans (extractLsb'_of_accepts 0 1 hacc (by decide))
    rw [decode_of_accepts_ctrlRow hacc (by decide) (by decide), decodeHostWrite, if_pos rfl, if_pos h0]
    exact .inl rfl
  | hWrCtrlNop dc =>
    have h0 : (htxData h).extractLsb' 0 1 = 0#1 :=
      (htxData_extract h (by decide)).trans (extractLsb'_of_accepts 0 1 hacc (by decide))
    rw [decode_of_accepts_ctrlRow hacc (by decide) (by decide), decodeHostWrite, if_pos rfl,
      if_neg (by rw [h0]; decide)]
    exact .inl rfl
  | hRdAmp c e dc =>
    have hwe : htxWe h = 0#1 := htxWe_of_accepts hacc (by decide)
    have hwindow : (htxAddr h).extractLsb' 21 2 = 0b01#2 :=
      (htxAddr_extract h (by decide)).trans (extractLsb'_of_accepts 53 2 hacc (by decide))
    rw [decode_htx56_of_read hwe, decodeHostRead_amp ((inAmpWindow_iff _).mp hwindow)]
    exact .inl rfl
  | hRdTdc c t dc =>
    have hwe : htxWe h = 0#1 := htxWe_of_accepts hacc (by decide)
    have hwindow : (htxAddr h).extractLsb' 19 4 = 0b1000#4 :=
      (htxAddr_extract h (by decide)).trans (extractLsb'_of_accepts 51 4 hacc (by decide))
    rw [decode_htx56_of_read hwe, decodeHostRead_tdc ((inTdcWindow_iff _).mp hwindow)]
    exact .inl rfl

/-- Settles O4: a matching row is the decoded operation's or a fallback row, and a fallback row fixes fewer bits than
any other row that can match with it. -/
theorem hostDecodeIsTheMostSpecificRow : Obligations.HostDecodeIsTheMostSpecificRow := by
  intro h
  have hmem := mem_htxRows_iff.mpr ⟨_, rfl, isHostOp_decode_htx56 h⟩
  have hdecoded := opcodeRow_decode_accepts h
  refine ⟨hmem, hdecoded, fun row hrow hacc hne => ?fewer, fun row hrow row' hrow' hacc hacc' => ?nested⟩
  case fewer =>
    obtain ⟨i, rfl, hi⟩ := mem_htxRows_iff.mp hrow
    have hfallback := (opcodeRow_eq_of_accepts hi hacc).resolve_left hne
    exact fallback_fixes_fewer _ hfallback _ hmem (OpcodeRow.agrees_of_accepts hacc hdecoded) hne
  case nested => exact nested_of_agrees _ hrow _ hrow' (OpcodeRow.agrees_of_accepts hacc hacc')

end Sys2Proof
end

section
/-! The returned data (spec/30_encoding.md R84): no operation but a host read writes it. -/

namespace Sys2Proof.Machine

/-- The stream port's decoder gives no host operation (R86). -/
theorem isHostOp_decode_stx9 (x : Stx9) : isHostOp (decode (.stx9 x)) = false := by
  obtain ⟨-, hx⟩ | ⟨-, hx⟩ := decode_stx9_cases x <;> rw [hx] <;> rfl

/-- An operation that does not read `q` leaves it as it is: with `q` at its own value it answers its own next state. -/
theorem exec_keeps_q {i : Instr} {s t : State} (hi : isHostOp i = false) (h : exec i s = .next t) : t.q = s.q := by
  have hsame : exec i s = .next (t.withReadout s.q s.accerr) := exec_withReadout hi h s.q s.accerr
  have heq : t = t.withReadout s.q s.accerr := Host.Outcome.next.inj (h.symm.trans hsame)
  calc t.q
    _ = (t.withReadout s.q s.accerr).q := congrArg State.q heq
    _ = s.q := rfl

/-- A host write returns no data (R182 to R184). -/
theorem exec_hostWrite_keeps_q {h : Htx56} {s t : State} (hwe : htxWe h = 1#1)
    (hexec : exec (decode (.htx56 h)) s = .next t) : t.q = s.q := by
  rw [decode_htx56_of_write hwe, decodeHostWrite] at hexec
  split_ifs at hexec <;> cases hexec <;> rfl

/-- Settles O44: of the transactions a step can take, only a host access writes `q`, and not with `we = 1`. -/
theorem onlyHostReadsWriteQ : Obligations.OnlyHostReadsWriteQ := by
  intro s t h hne
  obtain ⟨-, rfl⟩ | ⟨ts, -, rfl⟩ | ⟨ts, -, -, rfl⟩ | ⟨ts, -, -, rfl⟩ | ⟨ts, x, xs, -, -, -, h⟩ |
    ⟨ts, x, xs, -, -, -, h⟩ | ⟨ts, a, as, hs, ho, h⟩ := step_cases h
  · exact absurd rfl hne
  · exact absurd rfl hne
  · exact absurd rfl hne
  · exact absurd rfl hne
  · exact absurd (exec_keeps_q (isHostOp_decode_stx9 x) h) hne
  · exact absurd (exec_keeps_q (isHostOp_decode_stx9 x) h) hne
  · exact ⟨a, ⟨by simp [hs], by simp [ho]⟩, eq_zero_of_ne_one fun hwe => absurd (exec_hostWrite_keeps_q hwe h) hne⟩

end Sys2Proof.Machine
end

section
/-! What the word reader does with one transfer (spec/40_word_reader.md R101, R102, R106, R107): the lane a byte goes
to, the word it completes, and where an end of stream leaves the run. -/

namespace Sys2Proof.Machine

/-! ## The lanes of the assembly buffer -/

/-- Storing a byte in lane `k` replaces that lane and no other (R101). -/
theorem setLane_extract (w : Word) (k : BitVec 2) (d : Byte) {j : Nat} (hj : j < 4) :
    (setLane w k d).extractLsb' (8 * j) 8 = if j = k.toNat then d else w.extractLsb' (8 * j) 8 := by
  refine BitVec.eq_of_getLsbD_eq fun i hi => ?_
  rw [BitVec.getLsbD_extractLsb', setLane_getLsbD w k d (by omega), show (8 * j + i) / 8 = j by omega,
    show (8 * j + i) % 8 = i by omega]
  by_cases hlane : j = k.toNat
  · simp [hlane, hi]
  · simp [hlane, hi]

/-- The byte stored in the top lane completes the word of the three bytes below it (R103, R104). -/
theorem setLane_three (w : Word) (d : Byte) : setLane w 3#2 d = d ++ w.extractLsb' 0 24 := by
  refine BitVec.eq_of_getLsbD_eq fun i hi => ?_
  rw [setLane_getLsbD w 3#2 d hi, BitVec.getLsbD_append, BitVec.getLsbD_extractLsb', Nat.zero_add]
  by_cases htop : i < 24
  · simp [htop, show i / 8 ≠ 3 by omega]
  · simp [htop, show i / 8 = 3 by omega, show i % 8 = i - 24 by omega]

/-- At the last position of a word the byte goes on top of the three that ABUF holds. -/
theorem State.abufWith_of_lastByte {s : State} (hp : s.bytePos = 3#3 ∨ s.bytePos = 7#3) (d : Byte) :
    s.abufWith d = d ++ s.abuf.extractLsb' 0 24 := by
  have hlane : byteLane s.bytePos = 3#2 := by obtain hp | hp := hp <;> rw [hp] <;> rfl
  rw [State.abufWith, hlane, setLane_three]

/-! ## One byte in ACCUM -/

/-- Settles O16: at BYTEPOS 3 and 7 the byte completes the word whose action is given; elsewhere it is stored in its
lane. -/
theorem sByteInAccum : Obligations.SByteInAccum := by
  intro s d hr
  rw [exec_sByte_of_accum hr]
  refine ⟨fun h3 h7 => ?store, fun h3 t h => ?event, fun h7 t h => ?clock⟩
  case store =>
    refine ⟨s.abufWith d, State.acceptByte_store h3 h7 d, ?same, fun j hj hne => ?others⟩
    case same => rw [State.abufWith, setLane_extract _ _ _ (by omega), byteLane_toNat, if_pos rfl]
    case others => rw [State.abufWith, setLane_extract _ _ _ hj, byteLane_toNat, if_neg hne]
  case event =>
    obtain ⟨u, v, hu, hv, rfl⟩ := State.eventAction_eq_next.mp h
    exact State.acceptByte_of_event h3 (State.abufWith_of_lastByte (.inl h3) d) hu hv
  case clock =>
    cases h
    rw [State.acceptByte_of_clock h7, State.abufWith_of_lastByte (.inr h7), State.clockAction_eq, State.clockAction_eq]

/-- An accepted byte advances BYTEPOS, modulo 8 (R101). -/
theorem State.acceptByte_bytePos {d : Byte} {s t : State} (h : s.acceptByte d = .next t) :
    t.bytePos = s.bytePos + 1#3 := by
  obtain ⟨h3, u, v, -, -, rfl⟩ | ⟨h7, rfl⟩ | ⟨-, -, rfl⟩ := State.acceptByte_cases h
  · rw [h3]; rfl
  · rw [h7]; rfl
  · rfl

/-- Settles O17: with every cell defined the byte is accepted (`acceptByte_completes`), and no accepted byte reaches the
fields named. -/
theorem sByteCompletes : Obligations.SByteCompletes := by
  intro s d hr hdef
  obtain ⟨t, ht⟩ := hdef.acceptByte_completes d
  have hexec : exec (.sByte d) s = .next t := (exec_sByte_of_accum hr d).trans ht
  obtain ⟨hrun, htrunc, haccerr, -⟩ := State.acceptByte_flags ht
  obtain ⟨hconfig, hoffers, hissues, hturns⟩ := exec_keeps_config_and_ports hexec
  exact ⟨t, hexec, State.acceptByte_bytePos ht, hrun.trans hr, State.acceptByte_cellsDefined ht hdef, hconfig, htrunc,
    haccerr, exec_keeps_q rfl hexec, hoffers, hissues, hturns⟩

/-! ## The end of the stream -/

theorem exec_sEos_of_accum {s : State} (hr : s.runState = .accum) (d : Byte) :
    exec (.sEos d) s = .next s.endStream :=
  if_pos (s.streamReady_iff.mpr hr)

/-- Settles O19: the two branches of an accepted end of stream. -/
theorem endOfStream : Obligations.EndOfStream := by
  intro s d hr
  rw [exec_sEos_of_accum hr]
  exact ⟨fun h0 => congrArg _ (if_pos h0), fun h0 => congrArg _ (if_neg h0)⟩

/-- Settles O20: START leaves BYTEPOS at 0 and every cell 0, and the end of stream moves STATE only. -/
theorem emptyRunEndsDoneAndZero : Obligations.EmptyRunEndsDoneAndZero := by
  intro s dc d
  obtain ⟨hdone, -⟩ := endOfStream s.start d s.start_runState
  have hrun : runAll [.hStart dc, .sEos d] s = .next { s.start with runState := .done } :=
    (andThen_next_right (exec (.sEos d) s.start)).trans (hdone s.start_bytePos)
  exact ⟨_, hrun, rfl, s.start_cellsZero, rfl, rfl⟩

/-! ## Transfers outside ACCUM -/

/-- A write of CTRL with bit 0 set is a START (R182), whatever the other bits (R30). -/
theorem exec_opWr_start {d : Word} (hd : d.getLsbD 0 = true) (s : State) :
    exec (decode (.htx56 (opWr 0x000000#23 d))) s = .next s.start := by
  rw [opWr, decode_htx56_pack_write, exec_decodeHostWrite_ctrl, if_pos hd]

/-- A transfer offered before the run waits through its own turn and START's, and is the run's first (R102). -/
theorem runSteps_offered_before_start {s : State} (hr : s.runState ≠ .accum) {x : Stx9} {rest : List Stx9}
    (ho : s.streamOffers = x :: rest) {d : Word} (hd : d.getLsbD 0 = true) {hs : List Htx56}
    (hi : s.hostIssues = opWr 0x000000#23 d :: hs) {turns : List Turn}
    (hsch : s.schedule = .producer :: .host :: .producer :: turns) :
    runSteps 3 s = exec (decode (.stx9 x)) (s.start.withPorts rest hs turns) := by
  have hwait : step s = .next { s with schedule := .host :: .producer :: turns } :=
    step_of_producer_of_not_accum hsch hr
  have hstart : step { s with schedule := .host :: .producer :: turns } =
      .next (s.start.withPorts (x :: rest) hs (.producer :: turns)) := by
    rw [step_of_host_cons (s := { s with schedule := .host :: .producer :: turns }) rfl hi, exec_opWr_start hd, ← ho]
    rfl
  rw [runSteps_succ, hwait, andThen_next, runSteps_succ, hstart, andThen_next, runSteps_succ,
    step_offered s.start_runState]
  exact andThen_next_right _

/-- Settles O11: outside ACCUM the stream operations answer the unchanged state, so a producer's turn passes, and the
transfer waits for START. -/
theorem transfersAreAcceptedInAccumOnly : Obligations.TransfersAreAcceptedInAccumOnly := by
  refine ⟨fun s d hr => ?unchanged, fun s turns hsch hr => step_of_producer_of_not_accum hsch hr, ?firstOfRun⟩
  case unchanged =>
    have hready : ¬ s.streamReady = true := mt s.streamReady_iff.mp hr
    exact ⟨if_neg hready, if_neg hready⟩
  case firstOfRun =>
    intro s x rest d hs turns hr ho hd hi hsch
    exact ⟨s.start, rfl, s.start_runState, runSteps_offered_before_start hr ho hd hi hsch⟩

end Sys2Proof.Machine
end

section
/-! What EXTRACT reads of a word (spec/41_event_decoder.md): its fields as shifts and masks (R121), its inversion of the
packing (R124), and the reserved bit, which no other field sees (R123). -/

namespace Sys2Proof.Machine

/-! ## Shift and mask -/

/-- A bit field is its word shifted down to bit 0 and masked to the field's width. -/
theorem setWidth_extractLsb'_eq_shift_and_mask {m : Nat} (x : BitVec m) (k : Nat) {n : Nat} (hn : n ≤ m) :
    (x.extractLsb' k n).setWidth m = (x >>> k) &&& BitVec.ofNat m (2 ^ n - 1) := by
  have hwidth : 2 ^ n ≤ 2 ^ m := Nat.pow_le_pow_right (by decide) hn
  have hfield : x.toNat >>> k % 2 ^ n < 2 ^ m := (Nat.mod_lt _ (by positivity)).trans_le hwidth
  have hmask : 2 ^ n - 1 < 2 ^ m := (Nat.sub_one_lt (by positivity)).trans_le hwidth
  apply BitVec.eq_of_toNat_eq
  rw [BitVec.toNat_setWidth, BitVec.extractLsb'_toNat, Nat.mod_eq_of_lt hfield, BitVec.toNat_and,
    BitVec.toNat_ushiftRight, BitVec.toNat_ofNat, Nat.mod_eq_of_lt hmask, Nat.and_two_pow_sub_one_eq_mod]

/-- Settles O7: each field of EXTRACT is a bit field of its word; energy, at bit 0, needs no shift. -/
theorem extractIsShiftAndMask : Obligations.ExtractIsShiftAndMask := by
  intro w
  have henergy := setWidth_extractLsb'_eq_shift_and_mask w 0 (n := 12) (by decide)
  rw [BitVec.ushiftRight_zero] at henergy
  exact ⟨setWidth_extractLsb'_eq_shift_and_mask w 31 (n := 1) (by decide),
    setWidth_extractLsb'_eq_shift_and_mask w 22 (n := 9) (by decide),
    setWidth_extractLsb'_eq_shift_and_mask w 12 (n := 10) (by decide), henergy⟩

/-! ## Packing -/

/-- With the reserved bit 0 the packed word is its three other fields. -/
theorem packEvt32_zero (c : Channel) (t : TimeBin) (e : Energy) :
    packEvt32 0#1 c t e = (c.setWidth 32 <<< 22) ||| (t.setWidth 32 <<< 12) ||| e.setWidth 32 := by
  simp [packEvt32]

/-- Settles O8: EXTRACT and `packEvt32` are inverse (`extract_packEvt32`, `packEvt32_fields`). -/
theorem extractInvertsPacking : Obligations.ExtractInvertsPacking := by
  refine ⟨fun c t e => ?_, fun w => (packEvt32_fields w).symm⟩
  rw [← packEvt32_zero]
  exact extract_packEvt32 0#1 c t e

/-! ## The reserved bit -/

/-- Setting bit 31 sets `r` and reaches no other field (R121, R123). -/
theorem extract_or_bit31 (w : Word) : extract (w ||| 0x80000000#32) = { extract w with r := 1#1 } := by
  simp only [extract, BitVec.extractLsb'_or, EventFields.mk.injEq]
  exact ⟨BitVec.or_allOnes, BitVec.or_zero, BitVec.or_zero, BitVec.or_zero⟩

/-- Clearing bit 31 clears `r` and reaches no other field (R121, R123). -/
theorem extract_and_not_bit31 (w : Word) : extract (w &&& 0x7FFFFFFF#32) = { extract w with r := 0#1 } := by
  simp only [extract, BitVec.extractLsb'_and, EventFields.mk.injEq]
  exact ⟨BitVec.and_zero, BitVec.and_allOnes, BitVec.and_allOnes, BitVec.and_allOnes⟩

theorem exec_decode_evt32 (w : Word) (s : State) : exec (decode (.evt32 w)) s = s.eventAction (extract w) := rfl

/-- The event with `r = 1` differs from that with `r = 0` in RSVD_COUNT, and in CNTSAT at its largest value (R156). -/
theorem State.afterEvent_set_r (s : State) (f : EventFields) (u v : Word) :
    s.afterEvent { f with r := 1#1 } u v = { s.afterEvent { f with r := 0#1 } u v with
      rsvdCount := if s.rsvdCount = 0xFFFFFFFF#32 then 0xFFFFFFFF#32 else s.rsvdCount + 1#32
      cntsat := s.cntsat || decide (s.rsvdCount = 0xFFFFFFFF#32) } := by
  by_cases hmax : s.rsvdCount = 0xFFFFFFFF#32 <;> simp [State.afterEvent, satInc_32, hmax]

/-- Settles O23: both words name the same two cells, so the set word answers too, and `afterEvent_set_r` compares the
answers. -/
theorem reservedBitOnlyCounts : Obligations.ReservedBitOnlyCounts := by
  intro w
  rw [extract_or_bit31, extract_and_not_bit31]
  refine ⟨rfl, rfl, fun s t h => ?_⟩
  rw [exec_decode_evt32, extract_and_not_bit31] at h
  obtain ⟨u, v, hu, hv, rfl⟩ := State.eventAction_eq_next.mp h
  rw [exec_decode_evt32, extract_or_bit31, ← State.afterEvent_set_r]
  exact State.eventAction_eq_next.mpr ⟨u, v, hu, hv, rfl⟩

end Sys2Proof.Machine
end

section
/-! The clock decoder (spec/42_clock_decoder.md): what CLOCK_WORD does (R141), and that the bytes of a clock word reach
CLOCK_LAST, through ABUF, and nothing else (R143). -/

namespace Sys2Proof.Machine

/-- The clock action with PAIR_COUNT's saturating increment written out (R141, R157). -/
theorem State.clockAction_eq_saturating (w : Word) (s : State) :
    s.clockAction w = { s with
      clockLast := w
      pairCount := if s.pairCount = 0xFFFFFFFF#32 then 0xFFFFFFFF#32 else s.pairCount + 1#32
      cntsat := s.cntsat || decide (s.pairCount = 0xFFFFFFFF#32) } := by
  rw [State.clockAction_eq, satInc_32]
  by_cases hmax : s.pairCount = 0xFFFFFFFF#32
  · simp [hmax]
  · simp [hmax]

/-- Settles O24: CLOCK_WORD answers the clock action in every state. -/
theorem clockWordEffect : Obligations.ClockWordEffect :=
  fun w s => congrArg _ (s.clockAction_eq_saturating w)

/-- Only the byte that completes the event word reaches RSVD_COUNT and SAT (R103, R153). -/
theorem State.acceptByte_keeps_event_record {d : Byte} {s t : State} (h : s.acceptByte d = .next t)
    (h3 : s.bytePos ≠ 3#3) : t.rsvdCount = s.rsvdCount ∧ t.sat = s.sat := by
  obtain ⟨h3', -⟩ | ⟨-, rfl⟩ | ⟨-, -, rfl⟩ := State.acceptByte_cases h
  · exact absurd h3' h3
  · rw [State.clockAction_eq]
    exact ⟨rfl, rfl⟩
  · exact ⟨rfl, rfl⟩

/-- Where a byte completes no event word, another byte is accepted too, and which byte it was shows in ABUF and
CLOCK_LAST only. -/
theorem State.acceptByte_other_byte {d : Byte} {s t : State} (h : s.acceptByte d = .next t) (h3 : s.bytePos ≠ 3#3)
    (d' : Byte) : ∃ a k : Word, s.acceptByte d' = .next { t with abuf := a, clockLast := k } := by
  obtain ⟨h3', -⟩ | ⟨h7, rfl⟩ | ⟨-, h7, rfl⟩ := State.acceptByte_cases h
  · exact absurd h3' h3
  · refine ⟨0#32, s.abufWith d', ?_⟩
    rw [State.acceptByte_of_clock h7, State.clockAction_eq, State.clockAction_eq]
  · exact ⟨s.abufWith d', s.clockLast, State.acceptByte_store h3 h7 d'⟩

/-- Settles O25: BYTEPOS 4 to 7 is not 3, so the byte completes no event word: it is stored, or completes the clock
word. -/
theorem clockBytesReachOnlyClockLast : Obligations.ClockBytesReachOnlyClockLast := by
  intro s t d d' hr hpos h
  have h3 : s.bytePos ≠ 3#3 := by
    intro h3
    rw [h3] at hpos
    exact absurd hpos (by decide)
  rw [exec_sByte_of_accum hr] at h ⊢
  obtain ⟨hamp, htdc⟩ := State.acceptByte_tables h h3
  obtain ⟨hrsvd, hsat⟩ := State.acceptByte_keeps_event_record h h3
  obtain ⟨-, htrunc, haccerr, -⟩ := State.acceptByte_flags h
  exact ⟨hamp, htdc, hrsvd, htrunc, hsat, haccerr, State.acceptByte_other_byte h h3 d'⟩

end Sys2Proof.Machine
end

section
/-! The accumulator (spec/43_accumulator.md): the whole effect of EVENT_WORD (R153 to R156), what a list of event words
adds to each cell (R161), and that no cell value decreases within a run (R158). -/

namespace Sys2Proof.Machine

/-! ## One event word -/

/-- Reading after the increment of a cell, with the saturating increment written out (R154, R155). -/
theorem Memory.read_write_saturating (m : Memory) (cw : CellWidth) (ra : Nat) (v : Word) (x : Nat) :
    (m.write ra (satInc cw.bits v).1).read x =
      if x = ra then some (if v.toNat < 2 ^ cw.bits - 1 then v + 1#32 else v) else m.read x := by
  rw [Memory.read_write_satInc, satInc_fst]
  exact if_congr eq_comm rfl rfl

/-- The state after an event word: but for the two tables, only SAT, RSVD_COUNT and CNTSAT can differ (R153 to R156). -/
theorem State.afterEvent_eq_saturating (s : State) (f : EventFields) (u v : Word) :
    s.afterEvent f u v = { s with
      amp := (s.afterEvent f u v).amp
      tdc := (s.afterEvent f u v).tdc
      sat := s.sat || decide (2 ^ s.config.cw.bits - 1 ≤ u.toNat) || decide (2 ^ s.config.cw.bits - 1 ≤ v.toNat)
      rsvdCount :=
        if f.r = 1#1 then (if s.rsvdCount = 0xFFFFFFFF#32 then 0xFFFFFFFF#32 else s.rsvdCount + 1#32)
        else s.rsvdCount
      cntsat := s.cntsat || (decide (f.r = 1#1) && decide (s.rsvdCount = 0xFFFFFFFF#32)) } := by
  by_cases hmax : s.rsvdCount = 0xFFFFFFFF#32
  · simp [State.afterEvent, satInc_32, hmax]
  · simp [State.afterEvent, satInc_32, hmax]

/-- Settles O21: where both cells hold a value the answer is `afterEvent`, and every word with these fields gives it. -/
theorem eventWordEffect : Obligations.EventWordEffect := by
  intro r c t e s u v hu hv
  have hexec : s.eventAction ⟨r, c, t, e⟩ = .next (s.afterEvent ⟨r, c, t, e⟩ u v) :=
    State.eventAction_eq_next.mpr ⟨u, v, hu, hv, rfl⟩
  refine ⟨_, hexec, Memory.read_write_saturating _ _ _ u, Memory.read_write_saturating _ _ _ v,
    s.afterEvent_eq_saturating _ u v, fun w hw => ?_⟩
  rw [exec_decode_evt32, hw, hexec]

/-! ## A list of event words -/

/-- `s` after the event word `w`, from the counts its two cells hold. -/
def State.afterEventWord (s : State) (w : Word) : State :=
  s.afterEvent (extract w) (s.ampCount (extract w).channel (extract w).energy)
    (s.tdcCount (extract w).channel (extract w).time)

theorem State.cellsDefined.exec_evt32 {s : State} (h : s.cellsDefined) (w : Word) :
    exec (decode (.evt32 w)) s = .next (s.afterEventWord w) :=
  State.eventAction_eq_next.mpr ⟨_, _, h.read_amp _ _, h.read_tdc _ _, rfl⟩

/-- The clock word of a pair reaches no cell, so the event word alone counts what the pair does. -/
theorem State.afterEventWord_ampCount (s : State) (w : Word) (c : Channel) (e : Energy) :
    (s.afterEventWord w).ampCount c e =
      if selectsAmp c e w then satSucc s.config.cw (s.ampCount c e) else s.ampCount c e :=
  s.afterPair_ampCount (w, 0#32) c e

theorem State.afterEventWord_tdcCount (s : State) (w : Word) (c : Channel) (t : TimeBin) :
    (s.afterEventWord w).tdcCount c t =
      if selectsTdc c t w then satSucc s.config.cw (s.tdcCount c t) else s.tdcCount c t :=
  s.afterPair_tdcCount (w, 0#32) c t

/-- The first element of a list takes its step before the steps of the others are counted. -/
theorem iterate_countP_cons {α β : Type} (g : β → β) (sel : α → Bool) (a : α) (l : List α) (x : β) :
    g^[l.countP sel] (if sel a then g x else x) = g^[(a :: l).countP sel] x := by
  cases ha : sel a with
  | true => rw [List.countP_cons_of_pos ha, Function.iterate_succ_apply, if_pos rfl]
  | false => rw [List.countP_cons_of_neg (by simp [ha]), if_neg (by decide)]

/-- A list of event words answers, and has incremented each cell as often as there are words that select it (R161). -/
theorem State.cellsDefined.runAll_eventWords {s : State} (h : s.cellsDefined) (ws : List Word) :
    ∃ t, runAll (ws.map fun w => decode (.evt32 w)) s = .next t ∧ t.cellsDefined ∧
      (∀ c e, t.ampCount c e = (satSucc s.config.cw)^[ws.countP (selectsAmp c e)] (s.ampCount c e)) ∧
      ∀ c b, t.tdcCount c b = (satSucc s.config.cw)^[ws.countP (selectsTdc c b)] (s.tdcCount c b) := by
  induction ws generalizing s with
  | nil => exact ⟨s, rfl, h, fun _ _ => rfl, fun _ _ => rfl⟩
  | cons w ws ih =>
    obtain ⟨t, hrun, hdef, hamp, htdc⟩ := ih (s := s.afterEventWord w) (h.afterEvent _ _ _)
    refine ⟨t, andThen_eq_next.mpr ⟨_, h.exec_evt32 w, hrun⟩, hdef, fun c e => ?_, fun c b => ?_⟩
    · rw [hamp, State.afterEventWord_ampCount]
      exact iterate_countP_cons _ _ _ _ _
    · rw [htdc, State.afterEventWord_tdcCount]
      exact iterate_countP_cons _ _ _ _ _

/-- Settles O26: repeated increments of a cell that fits accumulate exactly (`satSucc_iterate_toNat`). -/
theorem repeatedEventsAccumulateExactly : Obligations.RepeatedEventsAccumulateExactly := by
  intro ws s hs
  obtain ⟨t, hrun, hdef, hamp, htdc⟩ := hs.runAll_eventWords ws
  refine ⟨t, hrun, fun c e v hv hfits => ⟨_, hdef.read_amp c e, ?_⟩, fun c b v hv hfits => ⟨_, hdef.read_tdc c b, ?_⟩⟩
  · obtain rfl : s.ampCount c e = v := Option.some.inj ((hs.read_amp c e).symm.trans hv)
    rw [hamp]
    exact satSucc_iterate_toNat _ hfits _
  · obtain rfl : s.tdcCount c b = v := Option.some.inj ((hs.read_tdc c b).symm.trans hv)
    rw [htdc]
    exact satSucc_iterate_toNat _ hfits _

/-! ## Counts within a run -/

/-- Every cell that holds a value in `m` holds one at least as large in `m'`. -/
def Memory.noCellLower (m m' : Memory) : Prop :=
  ∀ ra v, m.read ra = some v → ∃ v', m'.read ra = some v' ∧ v.toNat ≤ v'.toNat

theorem Memory.noCellLower_refl (m : Memory) : m.noCellLower m := fun _ v hv => ⟨v, hv, le_rfl⟩

/-- The increment of a cell lowers no cell (R154, R155). -/
theorem Memory.noCellLower_increment {m : Memory} {ra : Nat} {u : Word} (hu : m.read ra = some u) (cw : CellWidth) :
    m.noCellLower (m.write ra (satInc cw.bits u).1) := by
  intro x v hv
  rw [Memory.read_write_satInc]
  split_ifs with hx
  · obtain rfl : u = v := Option.some.inj (hu.symm.trans (hx ▸ hv))
    exact ⟨_, rfl, le_satInc cw u⟩
  · exact ⟨v, hv, le_rfl⟩

/-- An accepted byte increments one cell of each table, or reaches neither table. -/
theorem State.acceptByte_noCellLower {d : Byte} {s t : State} (h : s.acceptByte d = .next t) :
    s.amp.noCellLower t.amp ∧ s.tdc.noCellLower t.tdc := by
  obtain ⟨-, u, v, hu, hv, rfl⟩ | ⟨-, rfl⟩ | ⟨-, -, rfl⟩ := State.acceptByte_cases h
  · exact ⟨Memory.noCellLower_increment hu _, Memory.noCellLower_increment hv _⟩
  · rw [State.clockAction_eq]
    exact ⟨s.amp.noCellLower_refl, s.tdc.noCellLower_refl⟩
  · exact ⟨s.amp.noCellLower_refl, s.tdc.noCellLower_refl⟩

/-- Settles O27: of the ways a step can go, RESET and START are excluded, and only an accepted byte reaches a table. -/
theorem countsNeverDecrease : Obligations.CountsNeverDecrease := by
  intro s t h hstart hreset
  obtain ⟨os, is, ts, ⟨hr, -⟩ | ⟨hs, -⟩ | ⟨v, b, rfl⟩ | ⟨d, -, hb⟩ | ⟨x, -, -, rfl⟩⟩ := step_effect_cases h
  · exact absurd hr hreset
  · exact absurd hs hstart
  · rw [State.raiseIf_accerr_eq]
    exact ⟨s.amp.noCellLower_refl, s.tdc.noCellLower_refl⟩
  · exact State.acceptByte_noCellLower (s := s.withPorts os is ts) hb
  · obtain ⟨-, hamp, htdc⟩ := (s.withPorts os is ts).endStream_frame
    rw [hamp, htdc]
    exact ⟨s.amp.noCellLower_refl, s.tdc.noCellLower_refl⟩

end Sys2Proof.Machine
end

section
/-! The host port (spec/44_host_interface.md R182 to R194): what each host access does, in every state, and the order in
which host software reads the tables out. -/

namespace Sys2Proof.Machine

/-! ## The readout order -/

/-- The window address of a cell is the window's base and the cell's RAM address (R55, R60). -/
theorem ampWindowAddr_toNat (c : Channel) (e : Energy) : (ampWindowAddr c e).toNat = 0x200000 + ampAddr c e := by
  obtain ⟨hwindow, hrow, hcolumn⟩ := ampWindowAddr_fields c e
  have hin := (inAmpWindow_iff _).mp hwindow
  have hoffset := ampAddr_extract hin
  rw [hrow, hcolumn] at hoffset
  omega

/-- The window address of a cell is the window's base and the cell's RAM address (R55, R60). -/
theorem tdcWindowAddr_toNat (c : Channel) (t : TimeBin) : (tdcWindowAddr c t).toNat = 0x400000 + tdcAddr c t := by
  obtain ⟨hwindow, hrow, hcolumn⟩ := tdcWindowAddr_fields c t
  have hin := (inTdcWindow_iff _).mp hwindow
  have hoffset := tdcAddr_extract hin
  rw [hrow, hcolumn] at hoffset
  omega

/-- RAM address `k` is in row `k / 4096`, column `k % 4096` (R55). -/
theorem ampAddr_ofNat {k : Nat} (hk : k < ampCells) :
    ampAddr (BitVec.ofNat 9 (k / nEnergyBins)) (BitVec.ofNat 12 (k % nEnergyBins)) = k := by
  simp only [ampCells] at hk
  simp only [ampAddr_eq, nEnergyBins, BitVec.toNat_ofNat]
  omega

/-- RAM address `k` is in row `k / 1024`, column `k % 1024` (R55). -/
theorem tdcAddr_ofNat {k : Nat} (hk : k < tdcCells) :
    tdcAddr (BitVec.ofNat 9 (k / nTimeBins)) (BitVec.ofNat 10 (k % nTimeBins)) = k := by
  simp only [tdcCells] at hk
  simp only [tdcAddr_eq, nTimeBins, BitVec.toNat_ofNat]
  omega

/-- The readout's access number `ampAddr c e` is the read of that cell (R194). -/
theorem readoutAmp_getElem? (c : Channel) (e : Energy) : readoutAmp[ampAddr c e]? = some (opRdAmp c e) := by
  have hlt := ampAddr_lt c e
  obtain ⟨hrow, hcolumn⟩ := ampAddr_inj (ampAddr_ofNat hlt)
  rw [readoutAmp, List.getElem?_map, List.getElem?_range hlt, Option.map_some, hrow, hcolumn]

/-- The readout's access number `tdcAddr c t` is the read of that cell (R194). -/
theorem readoutTdc_getElem? (c : Channel) (t : TimeBin) : readoutTdc[tdcAddr c t]? = some (opRdTdc c t) := by
  have hlt := tdcAddr_lt c t
  obtain ⟨hrow, hcolumn⟩ := tdcAddr_inj (tdcAddr_ofNat hlt)
  rw [readoutTdc, List.getElem?_map, List.getElem?_range hlt, Option.map_some, hrow, hcolumn]

/-- The amplitude readout goes through the AMP window's addresses one after the other (R194). -/
theorem readoutAmp_addresses :
    readoutAmp.map (fun h => (htxAddr h).toNat) = List.range' 0x200000 ampCells := by
  rw [readoutAmp, List.map_map, List.range'_eq_map_range]
  refine List.map_congr_left fun k hk => ?_
  rw [Function.comp_apply, opRdAmp, opRd, htxAddr_pack, ampWindowAddr_toNat, ampAddr_ofNat (List.mem_range.mp hk)]

/-- The timing readout goes through the TDC window's addresses one after the other (R194). -/
theorem readoutTdc_addresses :
    readoutTdc.map (fun h => (htxAddr h).toNat) = List.range' 0x400000 tdcCells := by
  rw [readoutTdc, List.map_map, List.range'_eq_map_range]
  refine List.map_congr_left fun k hk => ?_
  rw [Function.comp_apply, opRdTdc, opRd, htxAddr_pack, tdcWindowAddr_toNat, tdcAddr_ofNat (List.mem_range.mp hk)]

/-- Settles O43: the access number is the RAM address, and the addresses read are consecutive, so none is repeated. -/
theorem readoutOrder : Obligations.ReadoutOrder := by
  refine ⟨fun c e => ?ampOrder, ?ampLength, fun c t => ?tdcOrder, ?tdcLength, ?ampNodup, ?tdcNodup⟩
  case ampOrder => rw [← ampAddr_eq, readoutAmp_getElem?]
  case ampLength => rw [readoutAmp, List.length_map, List.length_range, ampCells]
  case tdcOrder => rw [← tdcAddr_eq, readoutTdc_getElem?]
  case tdcLength => rw [readoutTdc, List.length_map, List.length_range, tdcCells]
  case ampNodup => exact List.Nodup.of_map _ (readoutAmp_addresses ▸ List.nodup_range')
  case tdcNodup => exact List.Nodup.of_map _ (readoutTdc_addresses ▸ List.nodup_range')

/-! ## Host writes -/

/-- A write of CTRL is a START if bit 0 of its data is set, and nothing otherwise (R182, R183). -/
theorem exec_ctrlWrite {h : Htx56} (hwe : htxWe h = 1#1) (haddr : htxAddr h = 0x000000#23) (s : State) :
    exec (decode (.htx56 h)) s = .next (if (htxData h).getLsbD 0 then s.start else s) := by
  rw [decode_htx56_of_write hwe, haddr, exec_decodeHostWrite_ctrl]

/-- A write elsewhere is H_WR_ILLEGAL (R184). -/
theorem decode_htx56_of_illegalWrite {h : Htx56} (hwe : htxWe h = 1#1) (haddr : htxAddr h ≠ 0x000000#23) :
    decode (.htx56 h) = .hWrIllegal (htxAddr h) (htxData h) := by
  rw [decode_htx56_of_write hwe, decodeHostWrite, if_neg haddr]

/-- Settles O30: the next state is `State.start`, whose tables read 0 at every address. -/
theorem startBeginsANewRun : Obligations.StartBeginsANewRun := by
  intro s dc
  refine ⟨s.start, rfl, Memory.read_zeroed, Memory.read_zeroed, rfl, fun h hwe haddr hbit => ?_⟩
  rw [exec_ctrlWrite hwe haddr, if_pos hbit]

/-- Settles O31: the two arms, and the accesses that decode to them. -/
theorem otherHostWrites : Obligations.OtherHostWrites := by
  refine ⟨fun s dc => rfl, fun s a d => rfl, fun s h hwe => ⟨fun haddr hbit => ?noStart, fun haddr => ?illegal⟩⟩
  case noStart => rw [exec_ctrlWrite hwe haddr, hbit, if_neg Bool.false_ne_true]
  case illegal => rw [decode_htx56_of_illegalWrite hwe haddr]; rfl

/-! ## Register reads -/

/-- A read is decoded by its address (R87). -/
theorem decode_htx56_of_readAt {h : Htx56} (hwe : htxWe h = 0#1) {a : HostAddr} (haddr : htxAddr h = a) :
    decode (.htx56 h) = decodeHostRead a (htxData h) := by
  rw [decode_htx56_of_read hwe, haddr]

/-- Settles O32: each arm replies with its register, and each address decodes to its arm. -/
theorem registerReads : Obligations.RegisterReads := by
  refine ⟨fun s dc => ⟨rfl, rfl, rfl, rfl⟩, fun s h hwe => ⟨fun ha => ?_, fun ha => ?_, fun ha => ?_, fun ha => ?_⟩⟩ <;>
    rw [decode_htx56_of_readAt hwe ha] <;> rfl

/-- STATUS has the four flags at bits 2 to 5 (R29). -/
theorem State.statusWord_flags (s : State) :
    s.statusWord.getLsbD 2 = s.trunc ∧ s.statusWord.getLsbD 3 = s.sat ∧ s.statusWord.getLsbD 4 = s.cntsat ∧
      s.statusWord.getLsbD 5 = s.accerr := by
  simp [State.statusWord]

/-- STATUS has STATE at bits 1:0 and BYTEPOS at bits 10:8 (R29). -/
theorem State.statusWord_fields (s : State) :
    s.statusWord.extractLsb' 0 2 = s.runState.code ∧ s.statusWord.extractLsb' 8 3 = s.bytePos := by
  refine ⟨?_, ?_⟩ <;> ext i hi <;> interval_cases i <;> simp [State.statusWord]

/-- The reserved bits 7:6 and 31:11 of STATUS are 0 (R29). -/
theorem State.statusWord_reserved (s : State) :
    s.statusWord.extractLsb' 6 2 = 0#2 ∧ s.statusWord.extractLsb' 11 21 = 0#21 := by
  refine ⟨?_, ?_⟩ <;> ext i hi <;> interval_cases i <;> simp [State.statusWord]

/-- Settles O33: the value is `State.statusWord`. -/
theorem statusReadFields : Obligations.StatusReadFields := by
  intro s dc
  obtain ⟨htrunc, hsat, hcntsat, haccerr⟩ := s.statusWord_flags
  obtain ⟨hstate, hbytePos⟩ := s.statusWord_fields
  obtain ⟨hlow, hhigh⟩ := s.statusWord_reserved
  refine ⟨s.statusWord, rfl, hstate, htrunc, hsat, hcntsat, haccerr, hlow, hbytePos, hhigh, fun h hwe haddr => ?_⟩
  rw [decode_htx56_of_readAt hwe haddr]
  rfl

/-- CONFIG is the three constant fields and, below them, CW (R31). -/
theorem Config.word_toNat (cfg : Config) : (Config.word cfg).toNat = 0xCA900 + cfg.cw.bits := by
  have hcw := cfg.cw.le_32
  have hconst : (12#32 <<< 16) ||| (10#32 <<< 12) ||| (9#32 <<< 8) = BitVec.ofNat 32 (0xCA9 <<< 8) := by decide
  rw [Config.word, hconst, BitVec.toNat_or, BitVec.toNat_ofNat, BitVec.toNat_ofNat, Nat.mod_eq_of_lt (by omega),
    Nat.mod_eq_of_lt (by omega), ← Nat.shiftLeft_add_eq_or_of_lt (by omega), Nat.shiftLeft_eq]

/-- A bit field of CONFIG, as a number. -/
theorem Config.word_field (cfg : Config) (k n : Nat) :
    ((Config.word cfg).extractLsb' k n).toNat = (0xCA900 + cfg.cw.bits) / 2 ^ k % 2 ^ n := by
  rw [BitVec.extractLsb'_toNat, Nat.shiftRight_eq_div_pow, Config.word_toNat]

/-- Settles O34: the value is `Config.word`, and its fields follow from its number. -/
theorem configReadFields : Obligations.ConfigReadFields := by
  intro s dc
  have hcw := s.config.cw.le_32
  refine ⟨Config.word s.config, rfl, ?cw, ?_, ?_, ?_, ?_, ?_, fun h32 => ?default, fun h hwe haddr => ?bits⟩
  case cw => rw [Config.word_field]; omega
  case default => exact BitVec.eq_of_toNat_eq (by rw [Config.word_toNat, h32]; rfl)
  case bits => rw [decode_htx56_of_readAt hwe haddr]; rfl
  all_goals
    apply BitVec.eq_of_toNat_eq
    rw [Config.word_field, BitVec.toNat_ofNat]
    omega

/-! ## Table reads and reserved reads -/

/-- Settles O35: both arms are `State.tableRead` of their cell, and the address ranges of the windows decode to them. -/
theorem tableReads : Obligations.TableReads := by
  refine ⟨fun s c e b dc => ?arms, fun h hwe => ⟨fun hamp => ?ampBits, fun htdc => ?tdcBits⟩⟩
  case arms =>
    exact ⟨fun hdone v hv => State.tableRead_eq_next.mpr (.inl ⟨hdone, v, hv, rfl⟩),
      fun hnot => State.tableRead_eq_next.mpr (.inr ⟨hnot, rfl⟩),
      fun hdone v hv => State.tableRead_eq_next.mpr (.inl ⟨hdone, v, hv, rfl⟩),
      fun hnot => State.tableRead_eq_next.mpr (.inr ⟨hnot, rfl⟩)⟩
  case ampBits => rw [decode_htx56_of_read hwe, decodeHostRead_amp ((inAmpWindow_iff _).mp hamp)]
  case tdcBits => rw [decode_htx56_of_read hwe, decodeHostRead_tdc ((inTdcWindow_iff _).mp htdc)]

/-- Settles O37: every address of the two reserved ranges decodes to the arm. -/
theorem reservedRead : Obligations.ReservedRead := by
  refine ⟨fun s a dc => rfl, fun s a dc ha => ?_⟩
  rw [decode_htx56_pack_read, decodeHostRead_reserved ha]
  rfl

end Sys2Proof.Machine
end

section
/-! Error events and illegal accesses (spec/60_exceptions.md R220, R224): what an access is answered where R224 lists it,
and where a taken error event shows in STATUS. -/

namespace Sys2Proof.Machine

/-! ## Illegal accesses -/

theorem illegalAccess_of_write {h : Htx56} {s : State} (hwe : htxWe h = 1#1) :
    illegalAccess h s = true ↔ htxAddr h ≠ 0x000000#23 := by
  simp [illegalAccess, hwe]

/-- An illegal read is at a reserved address, or at a table window outside DONE (R224). -/
theorem illegalAccess_of_read {h : Htx56} {s : State} (hwe : htxWe h = 0#1) :
    illegalAccess h s = true ↔ reservedAddr (htxAddr h) = true ∨
      ((htxAddr h).extractLsb' 21 2 = 0b01#2 ∨ (htxAddr h).extractLsb' 19 4 = 0b1000#4) ∧ s.runState ≠ .done := by
  simp [illegalAccess, hwe, ← tableWindowAddr_iff]

/-- Every illegal read is answered alike: `Q = 0` and ACCERR, and nothing else (R224). -/
theorem exec_illegalRead {h : Htx56} {s : State} (hwe : htxWe h = 0#1) (hill : illegalAccess h s = true) :
    exec (decode (.htx56 h)) s = .next s.illegalRead := by
  rw [decode_htx56_of_read hwe]
  obtain hreserved | ⟨hamp | htdc, hnot⟩ := (illegalAccess_of_read hwe).mp hill
  · rw [decodeHostRead_reserved ((reservedAddr_iff _).mp hreserved)]
    rfl
  · rw [decodeHostRead_amp ((inAmpWindow_iff _).mp hamp)]
    exact State.tableRead_eq_next.mpr (.inr ⟨hnot, rfl⟩)
  · rw [decodeHostRead_tdc ((inTdcWindow_iff _).mp htdc)]
    exact State.tableRead_eq_next.mpr (.inr ⟨hnot, rfl⟩)

/-- Settles O38: an illegal access is an illegal read or H_WR_ILLEGAL; a legal one is a CTRL write, or a read that writes
the returned data only. -/
theorem illegalAccessesAreThoseListed : Obligations.IllegalAccessesAreThoseListed := by
  intro h s
  obtain hwe | hwe := BitVec.eq_zero_or_eq_one (htxWe h)
  · rw [hwe, if_neg (by decide)]
    refine ⟨exec_illegalRead hwe, fun t hlegal hexec hacc => ?_⟩
    obtain ⟨ht, -⟩ := legalReadIsIdempotent h s t hwe hlegal hexec
    exact (congrArg State.accerr ht).symm.trans hacc
  · rw [hwe, if_pos rfl]
    refine ⟨fun hill => ?illegalWrite, fun t hlegal hexec hacc => ?ctrlWrite⟩
    case illegalWrite =>
      rw [decode_htx56_of_illegalWrite hwe ((illegalAccess_of_write hwe).mp hill)]
      rfl
    case ctrlWrite =>
      rw [Bool.eq_false_iff, Ne, illegalAccess_of_write hwe, not_not] at hlegal
      rw [exec_ctrlWrite hwe hlegal] at hexec
      split_ifs at hexec
      · cases hexec
        exact absurd hacc Bool.false_ne_true
      · cases hexec
        exact hacc

/-! ## Error events in STATUS -/

/-- STATUS holds nothing above BYTEPOS (R29). -/
theorem State.statusWord_getLsbD_of_ge (s : State) {k : Nat} (hk : 11 ≤ k) : s.statusWord.getLsbD k = false := by
  by_cases hwidth : k < 32
  · obtain ⟨-, hhigh⟩ := s.statusWord_reserved
    have hbit := congrArg (BitVec.getLsbD · (k - 11)) hhigh
    simpa [Nat.add_sub_of_le hk, show k - 11 < 21 by omega] using hbit
  · exact BitVec.getLsbD_of_ge _ _ (Nat.le_of_not_lt hwidth)

/-- Above STATE, a bit of STATUS is a flag at its own position or a bit of BYTEPOS (R29). -/
theorem State.statusWord_getLsbD (s : State) {k : Nat} (hk : 2 ≤ k) :
    s.statusWord.getLsbD k = ((decide (k = 2) && s.trunc) || (decide (k = 3) && s.sat) || (decide (k = 4) && s.cntsat) ||
      (decide (k = 5) && s.accerr) || (decide (8 ≤ k) && s.bytePos.getLsbD (k - 8))) := by
  by_cases hfield : k < 11
  · interval_cases k <;> simp [State.statusWord]
  · rw [s.statusWord_getLsbD_of_ge (Nat.le_of_not_lt hfield), BitVec.getLsbD_of_ge s.bytePos _ (by omega)]
    simp [show k ≠ 2 ∧ k ≠ 3 ∧ k ≠ 4 ∧ k ≠ 5 by omega]

/-- A taken event shows at its code (R220). -/
theorem State.statusWord_raise_code (ev : ErrorEvent) (s : State) :
    (s.raise ev).statusWord.getLsbD ev.code = true := by
  obtain ⟨htrunc, hsat, hcntsat, haccerr⟩ := (s.raise ev).statusWord_flags
  cases ev
  exacts [htrunc, hsat, hcntsat, haccerr]

/-- A taken event leaves the bits of STATUS above STATE as they were, but for its own. -/
theorem State.statusWord_raise_other (ev : ErrorEvent) (s : State) {k : Nat} (hk : 2 ≤ k) (hne : k ≠ ev.code) :
    (s.raise ev).statusWord.getLsbD k = s.statusWord.getLsbD k := by
  rw [State.statusWord_getLsbD _ hk, State.statusWord_getLsbD _ hk]
  cases ev <;> simp only [ErrorEvent.code] at hne <;> simp [hne]

theorem State.raise_runState (ev : ErrorEvent) (s : State) :
    (s.raise ev).runState = if ev = .trunc then .error else s.runState := by
  cases ev <;> rfl

/-- Settles O47: the two values are `State.statusWord` before and after the event. -/
theorem raisedEventShowsAtItsCode : Obligations.RaisedEventShowsAtItsCode := by
  intro ev s dc
  refine ⟨s.statusWord, (s.raise ev).statusWord, rfl, rfl, s.statusWord_raise_code ev,
    fun k hk hne => s.statusWord_raise_other ev hk hne, ?_⟩
  obtain ⟨hbefore, -⟩ := s.statusWord_fields
  obtain ⟨hafter, -⟩ := (s.raise ev).statusWord_fields
  rw [hbefore, hafter, State.raise_runState, apply_ite RunState.code]

end Sys2Proof.Machine
end

section
/-! RESET (spec/70_reset_and_hazards.md R250): its effect from any state, and the transfers that stay offered across it
until the next START. -/

namespace Sys2Proof.Machine

/-- The turn after START's accepts the transfer offered first, in whatever state START came (R102, R182). -/
theorem runSteps_start_then_offered {d : Word} (hd : d.getLsbD 0 = true) (s : State) (x : Stx9) (rest : List Stx9)
    (issues : List Htx56) (turns : List Turn) :
    runSteps 2 (s.withPorts (x :: rest) (opWr 0x000000#23 d :: issues) (.host :: .producer :: turns)) =
      exec (decode (.stx9 x)) (s.start.withPorts rest issues turns) := by
  have hstart : step (s.withPorts (x :: rest) (opWr 0x000000#23 d :: issues) (.host :: .producer :: turns)) =
      .next (s.start.withPorts (x :: rest) issues (.producer :: turns)) :=
    (step_of_host_cons rfl rfl).trans (exec_opWr_start hd _)
  rw [runSteps_succ, hstart, andThen_next, runSteps_succ, step_offered s.start_runState]
  exact andThen_next_right _

/-- Settles O15: the next state is `State.takeReset`, which keeps the offers, and the run that START begins takes the
first of them. -/
theorem resetTransaction : Obligations.ResetTransaction := by
  intro s turns hsch
  refine ⟨_, step_of_reset hsch, rfl, rfl, rfl, rfl, rfl, rfl, rfl, rfl, rfl, rfl, Memory.read_unspecified,
    Memory.read_unspecified, rfl, rfl, fun x rest d hs ts ho hd => ⟨_, rfl, ?firstOfRun⟩⟩
  case firstOfRun =>
    have hrun := runSteps_start_then_offered hd (State.takeReset { s with schedule := turns }) x rest hs ts
    rw [← ho] at hrun
    exact hrun

end Sys2Proof.Machine
end

section
/-! Words of the spec's test vectors (spec/95_test_vectors.md), and the stop on a cell that holds no value
(spec/93_implementation_defined.md item 1). -/

namespace Sys2Proof.Machine

/-! ## Test vectors -/

/-- A word decodes to the well-formed operation whose encoding it is. -/
theorem decode_of_encode_eq {x : Encoding} {i : Instr} (hi : i.wellFormed = true) (hx : encode i = x) : decode x = i :=
  hx ▸ decode_encode hi

/-- Settles O6: each word is the encoding of the operation its vector names. -/
theorem specWordsDecode : Obligations.SpecWordsDecode :=
  ⟨decode_of_encode_eq rfl rfl, decode_of_encode_eq rfl rfl, decode_of_encode_eq rfl rfl, decode_of_encode_eq rfl rfl,
    decode_of_encode_eq rfl rfl, decode_of_encode_eq rfl rfl, decode_of_encode_eq rfl rfl, decode_of_encode_eq rfl rfl⟩

/-! ## The stop on an UNSPEC cell -/

theorem State.incrAmp_stops_or_answers (c : Channel) (e : Energy) (s : State) :
    s.incrAmp c e = .fault .unspecCell ∨ ∃ t, s.incrAmp c e = .next t := by
  unfold State.incrAmp
  cases s.amp.increment s.config.cw (ampAddr c e) with
  | none => exact .inl rfl
  | some cell => exact .inr ⟨_, rfl⟩

theorem State.incrTdc_stops_or_answers (c : Channel) (t : TimeBin) (s : State) :
    s.incrTdc c t = .fault .unspecCell ∨ ∃ u, s.incrTdc c t = .next u := by
  unfold State.incrTdc
  cases s.tdc.increment s.config.cw (tdcAddr c t) with
  | none => exact .inl rfl
  | some cell => exact .inr ⟨_, rfl⟩

/-- EVENT_WORD stops with no other fault, and refuses nothing (R153). -/
theorem State.eventAction_stops_or_answers (f : EventFields) (s : State) :
    s.eventAction f = .fault .unspecCell ∨ ∃ t, s.eventAction f = .next t := by
  unfold State.eventAction
  obtain hamp | ⟨s1, hamp⟩ := s.incrAmp_stops_or_answers f.channel f.energy
  · rw [hamp]
    exact .inl rfl
  · rw [hamp, andThen_next]
    obtain htdc | ⟨s2, htdc⟩ := s1.incrTdc_stops_or_answers f.channel f.time
    · rw [htdc]
      exact .inl rfl
    · rw [htdc]
      exact .inr ⟨_, rfl⟩

/-- Settles O22: EVENT_WORD would answer a next state only if both cells held a value (`State.eventAction_eq_next`). -/
theorem eventWordStopsOnUnspec : Obligations.EventWordStopsOnUnspec := by
  intro r c t e s hcell
  obtain hfault | ⟨u, hnext⟩ := s.eventAction_stops_or_answers ⟨r, c, t, e⟩
  · exact hfault
  · obtain ⟨a, b, ha, hb, -⟩ := State.eventAction_eq_next.mp hnext
    obtain hamp | htdc := hcell
    · exact absurd (ha.symm.trans hamp) (Option.some_ne_none a)
    · exact absurd (hb.symm.trans htdc) (Option.some_ne_none b)

/-- In DONE a table read has no value of an UNSPEC cell to return (R191, R192). -/
theorem State.tableRead_none {s : State} (hdone : s.runState = .done) : s.tableRead none = .fault .unspecCell :=
  if_pos hdone

/-- Settles O36: both arms are `State.tableRead` of their cell. -/
theorem tableReadStopsOnUnspec : Obligations.TableReadStopsOnUnspec := fun s _ _ _ _ hdone =>
  ⟨fun hamp => (congrArg s.tableRead hamp).trans (State.tableRead_none hdone),
    fun htdc => (congrArg s.tableRead htdc).trans (State.tableRead_none hdone)⟩

end Sys2Proof.Machine
end
